-- ==== Sys2Proof/Config.lean ====
section
/-! DEFINITION. The configuration record of 00_scope.md R8 with its legal ranges (R9), and the values
the spec leaves free: the input word of a tick for which none is scheduled (R17) and the sensor's
power-up time (92_eei_decisions.md D34). -/

namespace Sys2Proof

/-- The seven design-time parameters of R8, in ticks (1 tick = 1 µs, R11). -/
structure Params where
  /-- `T_START_LOW` -/
  tStartLow : Nat
  /-- `T_START_HIGH` -/
  tStartHigh : Nat
  /-- `TO_HS_LOW` -/
  toHsLow : Nat
  /-- `TO_HS_HIGH` -/
  toHsHigh : Nat
  /-- `TO_BIT_LOW` -/
  toBitLow : Nat
  /-- `TO_BIT_HIGH` -/
  toBitHigh : Nat
  /-- `BIT_THRESHOLD` -/
  bitThreshold : Nat
  deriving DecidableEq, Repr

/-- Why a record is refused: one name for each condition of R9, in the order of R8's table. -/
inductive ParamError where
  /-- `T_START_LOW` is not in 18000..65535. -/
  | tStartLow
  /-- `T_START_HIGH` is not in 20..40. -/
  | tStartHigh
  /-- `TO_HS_LOW` is not in 1..255. -/
  | toHsLow
  /-- `TO_HS_HIGH` is not in 1..255. -/
  | toHsHigh
  /-- `TO_BIT_LOW` is not in 1..255. -/
  | toBitLow
  /-- `TO_BIT_HIGH` is not in 1..255. -/
  | toBitHigh
  /-- `BIT_THRESHOLD` is not in 0..254. -/
  | bitThreshold
  /-- `BIT_THRESHOLD` is not below `TO_BIT_HIGH`: no `1` bit could be reached. -/
  | thresholdNotBelowTimeout
  deriving DecidableEq, Repr

/-- R9: the first condition of R8's table that the record breaks, `none` if it is well formed. -/
def Params.check (p : Params) : Option ParamError :=
  if ¬(18000 ≤ p.tStartLow ∧ p.tStartLow ≤ 65535) then some .tStartLow
  else if ¬(20 ≤ p.tStartHigh ∧ p.tStartHigh ≤ 40) then some .tStartHigh
  else if ¬(1 ≤ p.toHsLow ∧ p.toHsLow ≤ 255) then some .toHsLow
  else if ¬(1 ≤ p.toHsHigh ∧ p.toHsHigh ≤ 255) then some .toHsHigh
  else if ¬(1 ≤ p.toBitLow ∧ p.toBitLow ≤ 255) then some .toBitLow
  else if ¬(1 ≤ p.toBitHigh ∧ p.toBitHigh ≤ 255) then some .toBitHigh
  else if ¬(p.bitThreshold ≤ 254) then some .bitThreshold
  else if ¬(p.bitThreshold < p.toBitHigh) then some .thresholdNotBelowTimeout
  else none

/-- A configuration that can be built: a record together with the fact that R9 admits it.  R9 and R75
item 5: an ill-formed record is refused when it is built, so no block runs under one. -/
structure Config extends Params where
  ok : toParams.check = none
  deriving DecidableEq, Repr

namespace Config

/-- Build a configuration, refusing an ill-formed record by name (R9, R75 item 5). -/
def build (p : Params) : Except ParamError Config :=
  match h : p.check with
  | none => .ok ⟨p, h⟩
  | some e => .error e

/-- The default values of R8. -/
def default : Config :=
  { tStartLow := 20000, tStartHigh := 30, toHsLow := 85, toHsHigh := 85, toBitLow := 56,
    toBitHigh := 75, bitThreshold := 40, ok := by decide }

/-- `MIN_GAP` of R196: a duty of the host, in ticks.  The block never reads it. -/
def minGap : Nat := 2000000

/-- FREE VALUE (R17, R4; assumption 1): the input word `{rst, start, line_in}` that the outside world
drives during tick `n` when the model has no word scheduled for it.  No body: nothing constrains it. -/
opaque freeInput : Nat → BitVec 3

/-- FREE VALUE (D34, R194): `SENSOR_POWERUP_US`, which the spec leaves open.  The block never reads
it; only the host's duties name it. -/
opaque sensorPowerupUs : Nat

end Config
end Sys2Proof
end

