-- ==== Sys2Proof/Word.lean ====
section
/-! DEFINITION. The values the block computes on: the two levels of the line and the 40-bit frame
(00_scope.md R12, R13; 10_state.md R25, R26).  Every value of the block is unsigned (R14). -/

namespace Sys2Proof

/-- A logical level of the line (R12): `low` is bit 0, `high` is bit 1. -/
inductive Level where
  | low
  | high
  deriving DecidableEq, Repr

/-- The other level, the spec's `!L` (R12). -/
def Level.flip : Level → Level
  | .low => .high
  | .high => .low

/-- One byte of a frame. -/
abbrev Byte := BitVec 8

/-- A 40-bit frame, byte 0 in bits 39:32 (R13, R51). -/
abbrev Frame := BitVec 40

end Sys2Proof
end

