-- ==== Sys2Proof/Syntax.lean ====
section
/-! DEFINITION. The names the spec gives to states, outcomes, phases, the input word and the pulse
timer's results, and the one instruction type: a constructor for each row of opcode_table.json
(30_encoding.md R65, R79). -/

namespace Sys2Proof

/-- The eight values of the state register `st` (R68, R75 item 1). -/
inductive StateCode where
  | idle
  | startLow
  | startHigh
  | hsLow
  | hsHigh
  | bitLow
  | bitHigh
  /-- code 7, reached only before the first reset (R124, R193) -/
  | unused
  deriving DecidableEq, Repr

/-- The states other than IDLE, as the operand `sss` of READ_BUSY (R67, R111). -/
inductive BusyState where
  | startLow
  | startHigh
  | hsLow
  | hsHigh
  | bitLow
  | bitHigh
  | unused
  deriving DecidableEq, Repr

/-- The class of the most recent outcome (R69). -/
inductive OutcomeClass where
  | none
  | ok
  | timeout
  | checksum
  deriving DecidableEq, Repr

/-- The four timeout phases (R70), one for each pulse-timer state. -/
inductive Phase where
  | hsLow
  | hsHigh
  | bitLow
  | bitHigh
  deriving DecidableEq, Repr

/-- The input word `IN[2:0]` of one tick (R66). -/
structure InputWord where
  rst : Bool
  start : Bool
  line_in : Level
  deriving DecidableEq, Repr

/-- A result of the pulse timer (R91).  The elapsed count `e` is the exact `c + 1`. -/
inductive PtResult where
  | done (e : Nat)
  | timeout
  | busy
  deriving DecidableEq, Repr

/-- The block's operations: one constructor for each row of opcode_table.json, in its order.  Bits a
row marks `x` are no operands (R67: `line_in` never selects a command). -/
inductive Instr where
  /-- RESET, R190 -/
  | reset
  /-- READ, R110 -/
  | read
  /-- READ_BUSY, R111: `start` in a state other than IDLE -/
  | readBusy (st : BusyState) (line : Level)
  /-- NOP, R112 -/
  | nop
  /-- STATE_START_LOW, R113 -/
  | stateStartLow
  /-- STATE_START_HIGH, R114 -/
  | stateStartHigh
  /-- STATE_HS_LOW, R115; `line` is the tick's sample -/
  | stateHsLow (line : Level)
  /-- STATE_HS_HIGH, R116 -/
  | stateHsHigh (line : Level)
  /-- STATE_BIT_LOW, R117 -/
  | stateBitLow (line : Level)
  /-- STATE_BIT_HIGH, R118 -/
  | stateBitHigh (line : Level)
  /-- STATE_UNUSED, R124 -/
  | stateUnused
  /-- PT.MEASURE, R91: the pulse timer's operation word -/
  | ptMeasure (target : Level) (timeout : BitVec 8)
  /-- CK.VALIDATE, R150: the checksum validator's operand -/
  | ckValidate (frame : Frame)
  deriving DecidableEq, Repr

end Sys2Proof
end

