-- ==== Sys2Proof/WellFormed.lean ====
section
/-! DEFINITION. Which instructions are well formed: the operand ranges the spec states.  (The
configuration's ranges are `Params.check`, in Config.lean; READ_BUSY's `st ≠ IDLE` is in its type.) -/

namespace Sys2Proof

/-- R91: PT.MEASURE's timeout is 1 to 255; R72: `T = 0` is not encodable in a well-formed
configuration.  Every value of every other operand is legal. -/
def Instr.wellFormed : Instr → Bool
  | .reset => true
  | .read => true
  | .readBusy _ _ => true
  | .nop => true
  | .stateStartLow => true
  | .stateStartHigh => true
  | .stateHsLow _ => true
  | .stateHsHigh _ => true
  | .stateBitLow _ => true
  | .stateBitHigh _ => true
  | .stateUnused => true
  | .ptMeasure _ timeout => decide (timeout ≠ 0)
  | .ckValidate _ => true

/-- The well-formedness of an instruction as a proposition. -/
abbrev Instr.WellFormed (i : Instr) : Prop := i.wellFormed = true

end Sys2Proof
end

