-- ==== Sys2Proof/Decode.lean ====
section
/-! DEFINITION. The encodings of 30_encoding.md: codes of levels, states, outcomes and phases (R12,
R68 to R70), the input word (R66), the three operation words CMD6, PT9 and CK40 (R65, R72, R73, R79),
the decoder (R67) and the encoder. -/

namespace Sys2Proof

/-! ## Codes -/

/-- R12: LOW is 0, HIGH is 1. -/
def Level.ofBool (b : Bool) : Level := if b then .high else .low

/-- R12: the bit of a level, as a Bool. -/
def Level.isHigh : Level → Bool
  | .low => false
  | .high => true

/-- R12: the bit of a level. -/
def Level.bit (l : Level) : BitVec 1 := BitVec.ofBool l.isHigh

/-- R68: the code of a state. -/
def StateCode.code : StateCode → BitVec 3
  | .idle => 0b000#3
  | .startLow => 0b001#3
  | .startHigh => 0b010#3
  | .hsLow => 0b011#3
  | .hsHigh => 0b100#3
  | .bitLow => 0b101#3
  | .bitHigh => 0b110#3
  | .unused => 0b111#3

/-- R68: the state of a code. -/
def StateCode.ofCode (c : BitVec 3) : StateCode :=
  if c = 0b000#3 then .idle
  else if c = 0b001#3 then .startLow
  else if c = 0b010#3 then .startHigh
  else if c = 0b011#3 then .hsLow
  else if c = 0b100#3 then .hsHigh
  else if c = 0b101#3 then .bitLow
  else if c = 0b110#3 then .bitHigh
  else .unused

/-- The state that a READ_BUSY operand names. -/
def BusyState.state : BusyState → StateCode
  | .startLow => .startLow
  | .startHigh => .startHigh
  | .hsLow => .hsLow
  | .hsHigh => .hsHigh
  | .bitLow => .bitLow
  | .bitHigh => .bitHigh
  | .unused => .unused

/-- R69: the code of an outcome class. -/
def OutcomeClass.code : OutcomeClass → BitVec 2
  | .none => 0b00#2
  | .ok => 0b01#2
  | .timeout => 0b10#2
  | .checksum => 0b11#2

/-- R70: the code of a phase. -/
def Phase.code : Phase → BitVec 2
  | .hsLow => 0b00#2
  | .hsHigh => 0b01#2
  | .bitLow => 0b10#2
  | .bitHigh => 0b11#2

/-- R66: `IN[2] = rst`, `IN[1] = start`, `IN[0] = line_in`. -/
def InputWord.toBits (w : InputWord) : BitVec 3 :=
  BitVec.ofBool w.rst ++ BitVec.ofBool w.start ++ w.line_in.bit

/-- R66, read the other way. -/
def InputWord.ofBits (b : BitVec 3) : InputWord :=
  { rst := b.getLsbD 2, start := b.getLsbD 1, line_in := Level.ofBool (b.getLsbD 0) }

/-! ## The three operation words -/

/-- An operation word of opcode_table.json, by its format (R79). -/
inductive OpWord where
  /-- `{st[2:0], rst, start, line_in}` -/
  | cmd6 (w : BitVec 6)
  /-- `{L, T[7:0]}` (R72) -/
  | pt9 (w : BitVec 9)
  /-- `F[39:0]` (R73) -/
  | ck40 (w : BitVec 40)
  deriving DecidableEq, Repr

/-- The CMD6 word of a tick: the state code over the input word (R79). -/
def cmd6Word (st : StateCode) (w : InputWord) : BitVec 6 := st.code ++ w.toBits

/-- The PT9 word `{L, T}` (R72). -/
def pt9Word (target : Level) (timeout : BitVec 8) : BitVec 9 := target.bit ++ timeout

/-- Why bits are no operation word of the block (assumption 9). -/
inductive DecodeError where
  /-- the number of bits is that of no format -/
  | noSuchLength
  /-- a bit above the format's own bits is 1 -/
  | bitAboveTheWord
  deriving DecidableEq, Repr

/-- The operation word in `nbits` bits of value `w`.  A word may be given in its own width (6, 9, 40
bits) or in whole bytes (8, 16, 40), where the bits above it must be 0 (assumption 9). -/
def OpWord.ofBits (nbits w : Nat) : Except DecodeError OpWord :=
  if nbits = 6 ∨ nbits = 8 then
    if w < 2 ^ 6 then .ok (.cmd6 (BitVec.ofNat 6 w)) else .error .bitAboveTheWord
  else if nbits = 9 ∨ nbits = 16 then
    if w < 2 ^ 9 then .ok (.pt9 (BitVec.ofNat 9 w)) else .error .bitAboveTheWord
  else if nbits = 40 then
    if w < 2 ^ 40 then .ok (.ck40 (BitVec.ofNat 40 w)) else .error .bitAboveTheWord
  else .error .noSuchLength

/-- The width of a word's format. -/
def OpWord.width : OpWord → Nat
  | .cmd6 _ => 6
  | .pt9 _ => 9
  | .ck40 _ => 40

/-- The word's bits as a number. -/
def OpWord.toNat : OpWord → Nat
  | .cmd6 w => w.toNat
  | .pt9 w => w.toNat
  | .ck40 w => w.toNat

/-! ## The decoder -/

/-- R67 for `rst = 0`, `start = 1`: READ in IDLE, READ_BUSY elsewhere. -/
def decodeStart (st : StateCode) (line : Level) : Instr :=
  match st with
  | .idle => .read
  | .startLow => .readBusy .startLow line
  | .startHigh => .readBusy .startHigh line
  | .hsLow => .readBusy .hsLow line
  | .hsHigh => .readBusy .hsHigh line
  | .bitLow => .readBusy .bitLow line
  | .bitHigh => .readBusy .bitHigh line
  | .unused => .readBusy .unused line

/-- R67 for `rst = 0`, `start = 0`: NOP in IDLE, the state operation of `st` elsewhere. -/
def decodeState (st : StateCode) (line : Level) : Instr :=
  match st with
  | .idle => .nop
  | .startLow => .stateStartLow
  | .startHigh => .stateStartHigh
  | .hsLow => .stateHsLow line
  | .hsHigh => .stateHsHigh line
  | .bitLow => .stateBitLow line
  | .bitHigh => .stateBitHigh line
  | .unused => .stateUnused

/-- R67: the command of a CMD6 word, RESET before everything else.  Every word has one. -/
def decodeCmd6 (w : BitVec 6) : Instr :=
  if w.getLsbD 2 then .reset
  else if w.getLsbD 1 then
    decodeStart (StateCode.ofCode (w.extractLsb' 3 3)) (Level.ofBool (w.getLsbD 0))
  else
    decodeState (StateCode.ofCode (w.extractLsb' 3 3)) (Level.ofBool (w.getLsbD 0))

/-- R72: `L` is bit 8, `T` is bits 7:0; every value of the word is a PT.MEASURE (R79). -/
def decodePt9 (w : BitVec 9) : Instr :=
  .ptMeasure (Level.ofBool (w.getLsbD 8)) (w.extractLsb' 0 8)

/-- The instruction of an operation word: every word of each format has exactly one (R79). -/
def decode : OpWord → Instr
  | .cmd6 w => decodeCmd6 w
  | .pt9 w => decodePt9 w
  | .ck40 w => .ckValidate w

/-- Decoding any bits at all: an instruction, or a rejection by name. -/
def decodeBits (nbits w : Nat) : Except DecodeError Instr :=
  match OpWord.ofBits nbits w with
  | .ok word => .ok (decode word)
  | .error e => .error e

/-- The instruction the decoder reads from an instruction whose bits are `w`, numbered as
opcode_table.json numbers them. -/
def decodeTableWord (nbits w : Nat) : Option Instr :=
  match decodeBits nbits w with
  | .ok i => some i
  | .error _ => none

/-! ## The encoder -/

/-- The word of an instruction, from the table's encodings; a bit the table marks `x` is written 0. -/
def encode : Instr → OpWord
  | .reset => .cmd6 0b000100#6
  | .read => .cmd6 0b000010#6
  | .readBusy st line => .cmd6 (st.state.code ++ 0b01#2 ++ line.bit)
  | .nop => .cmd6 0b000000#6
  | .stateStartLow => .cmd6 0b001000#6
  | .stateStartHigh => .cmd6 0b010000#6
  | .stateHsLow line => .cmd6 (0b01100#5 ++ line.bit)
  | .stateHsHigh line => .cmd6 (0b10000#5 ++ line.bit)
  | .stateBitLow line => .cmd6 (0b10100#5 ++ line.bit)
  | .stateBitHigh line => .cmd6 (0b11000#5 ++ line.bit)
  | .stateUnused => .cmd6 0b111000#6
  | .ptMeasure target timeout => .pt9 (pt9Word target timeout)
  | .ckValidate frame => .ck40 frame

/-! ## opcode_table.json's own rows -/

/-- The mnemonic of an instruction, as the table spells it. -/
def Instr.mnemonic : Instr → String
  | .reset => "RESET"
  | .read => "READ"
  | .readBusy _ _ => "READ_BUSY"
  | .nop => "NOP"
  | .stateStartLow => "STATE_START_LOW"
  | .stateStartHigh => "STATE_START_HIGH"
  | .stateHsLow _ => "STATE_HS_LOW"
  | .stateHsHigh _ => "STATE_HS_HIGH"
  | .stateBitLow _ => "STATE_BIT_LOW"
  | .stateBitHigh _ => "STATE_BIT_HIGH"
  | .stateUnused => "STATE_UNUSED"
  | .ptMeasure _ _ => "PT.MEASURE"
  | .ckValidate _ => "CK.VALIDATE"

/-- A CMD6 row of the table: a word matches it when the bits under `mask` are those of `pattern`. -/
structure Cmd6Row where
  mnemonic : String
  pattern : BitVec 6
  mask : BitVec 6
  deriving DecidableEq, Repr

/-- The table's `match` and `mask` columns. -/
def Cmd6Row.hits (r : Cmd6Row) (w : BitVec 6) : Bool := decide (w &&& r.mask = r.pattern)

/-- The eleven CMD6 rows, in the table's order, which is the priority order of R67 (R79). -/
def cmd6Table : List Cmd6Row :=
  [ ⟨"RESET", 0x04#6, 0x04#6⟩,
    ⟨"READ", 0x02#6, 0x3E#6⟩,
    ⟨"READ_BUSY", 0x02#6, 0x06#6⟩,
    ⟨"NOP", 0x00#6, 0x3E#6⟩,
    ⟨"STATE_START_LOW", 0x08#6, 0x3E#6⟩,
    ⟨"STATE_START_HIGH", 0x10#6, 0x3E#6⟩ ] ++
  [ ⟨"STATE_HS_LOW", 0x18#6, 0x3E#6⟩,
    ⟨"STATE_HS_HIGH", 0x20#6, 0x3E#6⟩,
    ⟨"STATE_BIT_LOW", 0x28#6, 0x3E#6⟩,
    ⟨"STATE_BIT_HIGH", 0x30#6, 0x3E#6⟩,
    ⟨"STATE_UNUSED", 0x38#6, 0x3E#6⟩ ]

end Sys2Proof
end

