-- ==== Sys2Proof/Machine/State.lean ====
section
/-! DEFINITION. The state of the block as plain data: the nine registers of 10_state.md R30 under the
spec's own names, and beside them the model's own fields: the configuration the block is built with,
the input words still to come, the tick number that indexes the free draw, and the answer of a
sub-unit that was run on its own. -/

namespace Sys2Proof.Machine

/-- What the outside world presents to the block for one step (assumptions 1 and 4): the input word of
a tick, or an operation word given straight to one sub-unit. -/
inductive Stimulus where
  /-- one tick with this input word (R66) -/
  | tick (w : InputWord)
  /-- a PT9 word for the pulse timer alone (R72) -/
  | ptWord (w : BitVec 9)
  /-- a CK40 operand for the checksum validator alone (R73) -/
  | ckWord (w : Frame)
  deriving DecidableEq, Repr

/-- The stimulus is a tick. -/
def Stimulus.isTick : Stimulus → Bool
  | .tick _ => true
  | .ptWord _ => false
  | .ckWord _ => false

/-- What a sub-unit run on its own answers. -/
inductive UnitResult where
  /-- the pulse timer's result (R91) -/
  | pulse (r : PtResult)
  /-- the checksum validator's result, `true` = Valid (R150) -/
  | valid (b : Bool)
  deriving DecidableEq, Repr

/-- The machine's state: `S_n` of R11, and the model's own fields. -/
structure State where
  /-- FSM state register, 3 bits (R21) -/
  st : StateCode
  /-- start-sequence delay counter (R22) -/
  dly_cnt : BitVec 16
  /-- pulse-timer elapsed counter (R23) -/
  pt_cnt : BitVec 8
  /-- number of data bits assembled (R24) -/
  bit_cnt : BitVec 6
  /-- assembly shift register (R25) -/
  shreg : Frame
  /-- published frame register (R26) -/
  frame_q : Frame
  /-- outcome class of the last completed transaction (R27) -/
  outcome_q : OutcomeClass
  /-- phase of the last timeout (R28) -/
  phase_q : Phase
  /-- completion pulse register (R29) -/
  done_q : Bool
  /-- MODEL'S OWN (assumption 3): the configuration `Step` takes as an argument; no step writes it
  (R37, R41) -/
  cfg : Config
  /-- MODEL'S OWN (assumption 1): what is presented in the coming steps, the next one first -/
  inputs : List Stimulus
  /-- MODEL'S OWN (assumption 1): the number `n` of the current tick (R11), the index of the free draw -/
  tick : Nat
  /-- MODEL'S OWN (assumption 5): the answer of the last sub-unit operation run on its own -/
  unit_result : Option UnitResult
  deriving DecidableEq, Repr

/-- No constructor: R160 "no other error, fault or trap exists".  A timeout and a checksum failure are
outcomes, recorded in registers (R164, R121), and a step goes on after them. -/
inductive Fault where
  deriving DecidableEq, Repr

/-- Why a step may be refused. -/
inductive Refusal where
  /-- Raised only by an arm of `exec` that gives its instruction no meaning yet; no arm does.  Safe. -/
  | notModelled (mnemonic : String)
  deriving DecidableEq, Repr

/-- The state right after reset: the table of R30 and R190, under the default configuration of R8, with
nothing scheduled (assumptions 1, 3, 5 and 11). -/
def State.reset : State :=
  { st := .idle, dly_cnt := 0, pt_cnt := 0, bit_cnt := 0, shreg := 0, frame_q := 0,
    outcome_q := .none, phase_q := .hsLow, done_q := false,
    cfg := Config.default, inputs := [], tick := 0, unit_result := none }

end Sys2Proof.Machine
end

