-- ==== Sys2Proof/Machine/Operands.lean ====
section
/-! DEFINITION. Operands: where the input of a step comes from (R16, R17, R66), the step table of the
pulse-timer states (R71, R72) and the bytes of a frame (R51, R73, R150). -/

namespace Sys2Proof.Machine

/-! ## The input of a step -/

/-- What is presented for this step: the next scheduled stimulus, or, with nothing scheduled, a tick
whose input word is the free draw of R17 (assumption 1). -/
def State.present (s : State) : Stimulus :=
  match s.inputs with
  | [] => .tick (InputWord.ofBits (Config.freeInput s.tick))
  | x :: _ => x

/-- The input word of the coming tick: the first one scheduled, or the free draw (assumption 4). -/
def firstTickWord (n : Nat) : List Stimulus → InputWord
  | [] => InputWord.ofBits (Config.freeInput n)
  | .tick w :: _ => w
  | .ptWord _ :: rest => firstTickWord n rest
  | .ckWord _ :: rest => firstTickWord n rest

/-- `sample()` of R16: the line level the block samples in this tick. -/
def State.sample (s : State) : Level := (firstTickWord s.tick s.inputs).line_in

/-- The operation word of this step: `{st, rst, start, line_in}` in a tick (R79), or the word given to
a sub-unit. -/
def State.fetchWord (s : State) : OpWord :=
  match s.present with
  | .tick w => .cmd6 (cmd6Word s.st w)
  | .ptWord w => .pt9 w
  | .ckWord w => .ck40 w

/-- The step's stimulus is used up.  A tick also moves time on by one (R11); a sub-unit operation run
on its own takes no tick (assumption 4). -/
def State.advance (s : State) : State :=
  match s.inputs with
  | [] => { s with tick := s.tick + 1 }
  | .tick _ :: rest => { s with inputs := rest, tick := s.tick + 1 }
  | .ptWord _ :: rest => { s with inputs := rest }
  | .ckWord _ :: rest => { s with inputs := rest }

end Sys2Proof.Machine

namespace Sys2Proof

/-! ## The step table of the pulse-timer states (R71) -/

/-- The state whose call a phase names. -/
def Phase.state : Phase → StateCode
  | .hsLow => .hsLow
  | .hsHigh => .hsHigh
  | .bitLow => .bitLow
  | .bitHigh => .bitHigh

/-- R71: the level the call waits through. -/
def Phase.target : Phase → Level
  | .hsLow => .high
  | .hsHigh => .low
  | .bitLow => .low
  | .bitHigh => .high

/-- R71: the parameter that is the call's timeout. -/
def Phase.timeoutTicks (cfg : Config) : Phase → Nat
  | .hsLow => cfg.toHsLow
  | .hsHigh => cfg.toHsHigh
  | .bitLow => cfg.toBitLow
  | .bitHigh => cfg.toBitHigh

/-- R72: the timeout as the PT word carries it, `T[7:0]`. -/
def Phase.timeout (cfg : Config) (p : Phase) : BitVec 8 := BitVec.ofNat 8 (p.timeoutTicks cfg)

/-- R72: the PT word that the decoder issues in a pulse-timer state. -/
def Phase.ptWord (cfg : Config) (p : Phase) : BitVec 9 := pt9Word p.target (p.timeout cfg)

end Sys2Proof

namespace Sys2Proof.Machine

/-! ## The bytes of a frame -/

/-- R51: byte `j` of a frame is bits `[39-8j : 32-8j]`. -/
def frameByte (f : Frame) (j : Nat) : Byte := f.extractLsb' (32 - 8 * j) 8

/-- R51: the frame `0x{b0}{b1}{b2}{b3}{b4}`. -/
def frameOfBytes (b0 b1 b2 b3 b4 : Byte) : Frame := b0 ++ b1 ++ b2 ++ b3 ++ b4

/-- R51: the `k`-th data bit received is register bit `39 - k`. -/
def frameBit (f : Frame) (k : Nat) : Bool := f.getLsbD (39 - k)

end Sys2Proof.Machine
end

