-- ==== Sys2Proof/Machine/Ops.lean ====
section
/-! DEFINITION. The operations that the meanings share: the pulse timer's evaluation (R91), the
checksum (R150), the bit's classification and assembly (R119, R120), the completion of a frame (R121)
and the timeout completion, which is this block's way of raising an error (R164). -/

namespace Sys2Proof.Machine

/-! ## PWT -/

/-- R91, `PT_eval(L, T, c, s)`: the result and the new count.  The level test comes before the timeout
test (R92). -/
def ptEval (target : Level) (timeout : BitVec 8) (count : BitVec 8) (sample : Level) :
    PtResult × BitVec 8 :=
  if sample ≠ target then (.done (count.toNat + 1), 0)
  else if timeout.toNat ≤ count.toNat + 1 then (.timeout, 0)
  else (.busy, count + 1)

/-- One evaluation of the pulse timer on `pt_cnt`.  It writes `pt_cnt` and nothing else (R91). -/
def measure (target : Level) (timeout : BitVec 8) (sample : Level) (s : State) : PtResult × State :=
  ((ptEval target timeout s.pt_cnt sample).1,
   { s with pt_cnt := (ptEval target timeout s.pt_cnt sample).2 })

/-- The evaluation a pulse-timer state issues, with its fixed target and timeout (R71, R72). -/
def measurePhase (p : Phase) (sample : Level) (s : State) : PtResult × State :=
  measure p.target (p.timeout s.cfg) sample s

/-! ## CKV -/

/-- R150: the sum of the four payload bytes, modulo 256. -/
def ckSum (f : Frame) : Byte := frameByte f 0 + frameByte f 1 + frameByte f 2 + frameByte f 3

/-- R150: the frame is Valid when the sum equals byte 4. -/
def ckValid (f : Frame) : Bool := decide (ckSum f = frameByte f 4)

/-! ## Bits -/

/-- R119: a high phase is a `1` bit exactly when it is longer than `BIT_THRESHOLD`. -/
def classify (cfg : Config) (e : Nat) : Bool := decide (cfg.bitThreshold < e)

/-- R120: `{shreg[38:0], b}`. -/
def shiftIn (f : Frame) (b : Bool) : Frame := f.extractLsb' 0 39 ++ BitVec.ofBool b

/-! ## Completions -/

/-- R164, `raise TimeoutError(phase)`: the one way an error ends a transaction early.  There is no
handler to return from (R168): the block is in IDLE, ready for the next READ. -/
def raiseTimeout (p : Phase) (s : State) : State :=
  { s with outcome_q := .timeout, phase_q := p, st := .idle, done_q := true, pt_cnt := 0 }

/-- R121, `finish_frame(f)`: a full frame is published with the outcome of its checksum, in the same
step (R152). -/
def finishFrame (f : Frame) (s : State) : State :=
  { s with frame_q := f, outcome_q := if ckValid f then .ok else .checksum, st := .idle,
           done_q := true, pt_cnt := 0 }

/-- A step that completes nothing: it writes 0 to `done_q` (R29) and goes to state `next`. -/
def goTo (next : StateCode) (s : State) : State := { s with st := next, done_q := false }

/-- A step that completes nothing and stays in its state (R29). -/
def stay (s : State) : State := { s with done_q := false }

end Sys2Proof.Machine
end

