-- ==== Sys2Proof/Machine/PulseStates.lean ====
section
/-! DEFINITION. The four pulse-timer states (R115 to R118).  Each evaluates the pulse timer once on the
tick's sample and acts on the result. -/

namespace Sys2Proof.Machine

/-- HS_LOW (R115): wait for the sensor to pull the line low. -/
def execStateHsLow (line : Level) (s : State) : Host.Outcome State Fault Refusal :=
  match measurePhase .hsLow line s with
  | (.busy, t) => .next (stay t)
  | (.done _, t) => .next (goTo .hsHigh t)
  | (.timeout, t) => .next (raiseTimeout .hsLow t)

/-- HS_HIGH (R116): wait for the line to go high again. -/
def execStateHsHigh (line : Level) (s : State) : Host.Outcome State Fault Refusal :=
  match measurePhase .hsHigh line s with
  | (.busy, t) => .next (stay t)
  | (.done _, t) => .next (goTo .bitLow t)
  | (.timeout, t) => .next (raiseTimeout .hsHigh t)

/-- BIT_LOW (R117): measure one low phase; its length is not stored. -/
def execStateBitLow (line : Level) (s : State) : Host.Outcome State Fault Refusal :=
  match measurePhase .bitLow line s with
  | (.busy, t) => .next (stay t)
  | (.done _, t) => .next (goTo .bitHigh t)
  | (.timeout, t) => .next (raiseTimeout .bitLow t)

/-- The end of a high phase of length `e` (R118): the bit is classified and assembled, and the 40th bit
completes the frame. -/
def takeBit (e : Nat) (s : State) : State :=
  let f := shiftIn s.shreg (classify s.cfg e)
  let n1 := s.bit_cnt + 1
  if n1 = 40#6 then finishFrame f { s with shreg := f, bit_cnt := n1 }
  else goTo .bitLow { s with shreg := f, bit_cnt := n1 }

/-- BIT_HIGH (R118): measure one high phase, then classify and assemble the bit. -/
def execStateBitHigh (line : Level) (s : State) : Host.Outcome State Fault Refusal :=
  match measurePhase .bitHigh line s with
  | (.busy, t) => .next (stay t)
  | (.done e, t) => .next (takeBit e t)
  | (.timeout, t) => .next (raiseTimeout .bitHigh t)

end Sys2Proof.Machine
end

