-- ==== Sys2Proof/Machine/Start.lean ====
section
/-! DEFINITION. The states that sample nothing: the start sequence (R113, R114) and the unused code 7
(R124). -/

namespace Sys2Proof.Machine

/-- START_LOW (R113): drive the line low for `T_START_LOW` ticks. -/
def execStateStartLow (s : State) : Host.Outcome State Fault Refusal :=
  if s.dly_cnt.toNat = s.cfg.tStartLow - 1 then .next (goTo .startHigh { s with dly_cnt := 0 })
  else .next (stay { s with dly_cnt := s.dly_cnt + 1 })

/-- START_HIGH (R114): drive the line high for `T_START_HIGH` ticks, then release it; the HS_LOW call
begins at that step. -/
def execStateStartHigh (s : State) : Host.Outcome State Fault Refusal :=
  if s.dly_cnt.toNat = s.cfg.tStartHigh - 1 then
    .next (goTo .hsLow { s with dly_cnt := 0, pt_cnt := 0 })
  else .next (stay { s with dly_cnt := s.dly_cnt + 1 })

/-- The unused code 7 (R124): back to IDLE with both counters cleared, and no outcome. -/
def execStateUnused (s : State) : Host.Outcome State Fault Refusal :=
  .next (goTo .idle { s with dly_cnt := 0, pt_cnt := 0 })

end Sys2Proof.Machine
end

