-- ==== Sys2Proof/Machine/Commands.lean ====
section
/-! DEFINITION. The commands on the input word: RESET, READ, READ while busy, NOP (R65 item 1). -/

namespace Sys2Proof.Machine

/-- RESET (R190): every register takes its reset value, whatever it held.  The configuration is not
state (R30), and the schedule and the tick number are the outside world's. -/
def execReset (s : State) : Host.Outcome State Fault Refusal :=
  .next { State.reset with cfg := s.cfg, inputs := s.inputs, tick := s.tick }

/-- READ (R110): start a transaction; the last outcome, phase and frame stay. -/
def execRead (s : State) : Host.Outcome State Fault Refusal :=
  .next { s with st := .startLow, dly_cnt := 0, pt_cnt := 0, bit_cnt := 0, shreg := 0,
                 done_q := false }

/-- READ while busy (R111): exactly the state operation of `st`, as if `start = 0`. -/
def execReadBusy (st : BusyState) (line : Level) (s : State) : Host.Outcome State Fault Refusal :=
  match st with
  | .startLow => execStateStartLow s
  | .startHigh => execStateStartHigh s
  | .hsLow => execStateHsLow line s
  | .hsHigh => execStateHsHigh line s
  | .bitLow => execStateBitLow line s
  | .bitHigh => execStateBitHigh line s
  | .unused => execStateUnused s

/-- NOP in IDLE (R112): `done` falls. -/
def execNop (s : State) : Host.Outcome State Fault Refusal :=
  .next (stay s)

end Sys2Proof.Machine
end

