-- ==== Sys2Proof/Machine/SubUnits.lean ====
section
/-! DEFINITION. The two sub-unit operations run on their own (R65 item 3): PT.MEASURE (R91) and
CK.VALIDATE (R150).  Within a tick the state operations evaluate the same functions (`ptEval`,
`ckValid`).  Run on its own, a sub-unit leaves its answer in the model's own field `unit_result`
(assumptions 4 and 5). -/

namespace Sys2Proof.Machine

/-- PT.MEASURE (R91): evaluate the pulse timer on `pt_cnt` and `sample()`; of the registers it writes
`pt_cnt` alone. -/
def execPtMeasure (target : Level) (timeout : BitVec 8) (s : State) :
    Host.Outcome State Fault Refusal :=
  match measure target timeout s.sample s with
  | (r, t) => .next { t with unit_result := some (.pulse r) }

/-- CK.VALIDATE (R150): a pure function of its operand; it writes no register and raises nothing. -/
def execCkValidate (frame : Frame) (s : State) : Host.Outcome State Fault Refusal :=
  .next { s with unit_result := some (.valid (ckValid frame)) }

end Sys2Proof.Machine
end

