-- ==== Sys2Proof/Machine/Dispatch.lean ====
section
/-! DEFINITION. One arm per constructor of Instr: the meaning of each row of opcode_table.json. -/

namespace Sys2Proof.Machine

-- the rows of opcode_table.json, in its order
def exec (i : Instr) (s : State) : Host.Outcome State Fault Refusal :=
  match i with
  | .reset => Sys2Proof.Machine.execReset s
  | .read => Sys2Proof.Machine.execRead s
  | .readBusy st line => Sys2Proof.Machine.execReadBusy st line s
  | .nop => Sys2Proof.Machine.execNop s
  | .stateStartLow => Sys2Proof.Machine.execStateStartLow s
  | .stateStartHigh => Sys2Proof.Machine.execStateStartHigh s
  | .stateHsLow line => Sys2Proof.Machine.execStateHsLow line s
  | .stateHsHigh line => Sys2Proof.Machine.execStateHsHigh line s
  | .stateBitLow line => Sys2Proof.Machine.execStateBitLow line s
  | .stateBitHigh line => Sys2Proof.Machine.execStateBitHigh line s
  | .stateUnused => Sys2Proof.Machine.execStateUnused s
  | .ptMeasure target timeout => Sys2Proof.Machine.execPtMeasure target timeout s
  | .ckValidate frame => Sys2Proof.Machine.execCkValidate frame s

end Sys2Proof.Machine
end

