-- ==== Sys2Proof/Machine/Flags.lean ====
section
/-! DEFINITION. The output ports (10_state.md R31 to R35), the status flags (R36) and the packed STATUS
view (30_encoding.md R74).  Each is a function of the state alone: the block is a Moore machine (R31),
so reading a port changes nothing (R53). -/

namespace Sys2Proof.Machine

/-- R32: the block drives the line exactly in START_LOW and START_HIGH. -/
def State.line_oe (s : State) : Bool :=
  match s.st with
  | .startLow => true
  | .startHigh => true
  | .idle => false
  | .hsLow => false
  | .hsHigh => false
  | .bitLow => false
  | .bitHigh => false
  | .unused => false

/-- R33: the driven level is 1 exactly in START_HIGH. -/
def State.line_out (s : State) : Level := if s.st = .startHigh then .high else .low

/-- R34: a transaction is in progress exactly when `st` is not IDLE. -/
def State.busy (s : State) : Bool := decide (s.st ≠ .idle)

/-- The output ports of R31. -/
structure Outputs where
  line_oe : Bool
  line_out : Level
  busy : Bool
  done : Bool
  outcome : BitVec 2
  err_phase : BitVec 2
  bit_count : BitVec 6
  frame : Frame
  fsm_state : BitVec 3
  deriving DecidableEq, Repr

/-- R32 to R35: the outputs during the tick whose state is `s`. -/
def State.outputs (s : State) : Outputs :=
  { line_oe := s.line_oe, line_out := s.line_out, busy := s.busy, done := s.done_q,
    outcome := s.outcome_q.code, err_phase := s.phase_q.code, bit_count := s.bit_cnt,
    frame := s.frame_q, fsm_state := s.st.code }

/-- R74: `{busy, done, outcome, err_phase, bit_count, 0, fsm_state}`. -/
def Outputs.status (o : Outputs) : BitVec 16 :=
  BitVec.ofBool o.busy ++ BitVec.ofBool o.done ++ o.outcome ++ o.err_phase ++ o.bit_count ++
    0#1 ++ o.fsm_state

/-- The STATUS view of a state. -/
def State.status (s : State) : BitVec 16 := s.outputs.status

end Sys2Proof.Machine
end

