-- ==== Sys2Proof/Machine/Step.lean ====
section
/-! DEFINITION. One step of the machine (R11, R131): the operation word of what is presented is decoded
and run, and the stimulus is used up. -/

namespace Sys2Proof.Machine

/-- `S_{n+1} = Step(cfg, S_n, I_n)` (R11, R131). -/
def step (s : State) : Host.Outcome State Fault Refusal :=
  match exec (decode s.fetchWord) s with
  | .next t => .next t.advance
  | .fault f => .fault f
  | .refused r => .refused r

/-- `s` with an instruction's word presented for the very next step (assumption 1).  A CMD6 word holds
the state code too, so `st` is set to it; bits that are no operation word change nothing. -/
def State.withFetchWord (s : State) (nbits w : Nat) : State :=
  match OpWord.ofBits nbits w with
  | .ok (.cmd6 b) =>
    { s with st := StateCode.ofCode (b.extractLsb' 3 3),
             inputs := .tick (InputWord.ofBits (b.extractLsb' 0 3)) :: s.inputs }
  | .ok (.pt9 b) => { s with inputs := .ptWord b :: s.inputs }
  | .ok (.ck40 b) => { s with inputs := .ckWord b :: s.inputs }
  | .error _ => s

end Sys2Proof.Machine
end

