-- ==== Sys2Proof/Machine/Boundary.lean ====
section
/-! DEFINITION. The boundary contract of the out-of-scope host software (00_scope.md R7): the reading it
keeps (70_reset_and_hazards.md R199, 20_memory.md R52) and the duties it owes the block (R194, R196).
The block reads none of this. -/

namespace Sys2Proof.Machine

/-- The reading of R52: humidity is byte 0, temperature is byte 2. -/
structure SensorReading where
  humidity : Byte
  temperature : Byte
  deriving DecidableEq, Repr

/-- The host's cache (R199); the sentinel reading before the first success is the host's own value
(93_implementation_defined.md I13). -/
structure HostCache where
  reading : SensorReading
  everRead : Bool
  deriving DecidableEq, Repr

/-- What the host forwards to its error sink (R199). -/
inductive ErrorReport where
  | timeout (err_phase : BitVec 2)
  | checksum
  deriving DecidableEq, Repr

/-- R52: the reading in a frame. -/
def readingOf (f : Frame) : SensorReading :=
  { humidity := f.extractLsb' 32 8, temperature := f.extractLsb' 16 8 }

/-- R199: what the host does with the outputs of one tick. -/
def hostUpdate (o : Outputs) (c : HostCache) : HostCache × Option ErrorReport :=
  if o.done then
    if o.outcome = OutcomeClass.ok.code then ({ reading := readingOf o.frame, everRead := true }, none)
    else if o.outcome = OutcomeClass.timeout.code then (c, some (.timeout o.err_phase))
    else if o.outcome = OutcomeClass.checksum.code then (c, some .checksum)
    else (c, none)
  else (c, none)

/-- What the host's duties look back on: the ticks since the last transaction ended (R196) and whether
a READ was issued before (R194). -/
structure HostLog where
  sinceEnd : Option Nat
  hasRead : Bool
  deriving DecidableEq, Repr

/-- This tick's input word makes the block accept a READ (R67). -/
def acceptsRead (s : State) (w : InputWord) : Bool :=
  !w.rst && w.start && decide (s.st = .idle)

/-- R196 and R194 item 3: the host may give this word in this tick.  A READ comes `MIN_GAP` ticks or
more after the last transaction ended, and the first one not before the sensor's power-up time
(assumption 19). -/
def HostLog.allows (h : HostLog) (s : State) (w : InputWord) : Prop :=
  acceptsRead s w = true →
    (∀ k, h.sinceEnd = some k → Config.minGap ≤ k) ∧
    (h.hasRead = false → Config.sensorPowerupUs ≤ s.tick)

/-- The log after a tick that took `s` to `t`: `done_q` in `t` says that a transaction ended at this
step (R29). -/
def HostLog.after (h : HostLog) (s : State) (w : InputWord) (t : State) : HostLog :=
  { sinceEnd := if t.done_q then some 1 else h.sinceEnd.map (· + 1),
    hasRead := h.hasRead || acceptsRead s w }

end Sys2Proof.Machine
end

