-- ==== Sys2Proof/Machine/Script.lean ====
section
/-! DEFINITION. The stimulus script of 30_encoding.md R77 and its pseudo-instructions (R78): a scripted
line driver for the block.  It is the test bench the spec gives the block, not a part of the block. -/

namespace Sys2Proof.Machine

/-- One tick with the input word `w` from outside, before anything that is scheduled. -/
def tickWith (w : InputWord) (s : State) : Host.Outcome State Fault Refusal :=
  step { s with inputs := .tick w :: s.inputs }

/-- A run `H×n` or `L×n` of R77. -/
structure LevelRun where
  level : Level
  length : Nat
  deriving DecidableEq, Repr

/-- The samples of a list of runs, in order. -/
def expandRuns (runs : List LevelRun) : List Level :=
  runs.flatMap fun r => List.replicate r.length r.level

/-- `ACK(a, c)` of R78. -/
def ackRuns (a c : Nat) : List LevelRun := [⟨.high, a⟩, ⟨.low, c⟩]

/-- `BIT(v)` of R78. -/
def bitRuns (v : Bool) : List LevelRun := [⟨.low, 50⟩, ⟨.high, if v then 70 else 27⟩]

/-- `FIRSTBIT(v)` of R78: one sample longer than the high phase of `BIT(v)` (R127). -/
def firstBitRuns (v : Bool) : List LevelRun := [⟨.high, if v then 71 else 28⟩]

/-- The runs of `FRAME(b0,b1,b2,b3,b4)` of R78: FIRSTBIT, then BIT for the other 39 bits in the order of
R51.  The `L…` that ends a FRAME is `RespItem.holds`. -/
def frameRuns (f : Frame) : List LevelRun :=
  firstBitRuns (frameBit f 0) ++ (List.range 39).flatMap fun k => bitRuns (frameBit f (k + 1))

/-- `RESP` of R77: runs, and the level held for ever after them. -/
structure Response where
  runs : List LevelRun
  final : Level
  deriving DecidableEq, Repr

/-- Response sample `j`, counted from 1 (R77). -/
def Response.sample (r : Response) (j : Nat) : Level := (expandRuns r.runs).getD (j - 1) r.final

/-- What a `RESP` list is written with: runs and final holds (R77), and the pseudo-instructions of R78. -/
inductive RespItem where
  /-- `H×n` or `L×n` -/
  | run (r : LevelRun)
  /-- `H…` or `L…` -/
  | hold (l : Level)
  | ack (a c : Nat)
  | bit (v : Bool)
  | firstBit (v : Bool)
  | frame (b0 b1 b2 b3 b4 : Byte)
  deriving DecidableEq, Repr

/-- The runs that an item expands to (R77, R78). -/
def RespItem.runs : RespItem → List LevelRun
  | .run r => [r]
  | .hold _ => []
  | .ack a c => ackRuns a c
  | .bit v => bitRuns v
  | .firstBit v => firstBitRuns v
  | .frame b0 b1 b2 b3 b4 => frameRuns (frameOfBytes b0 b1 b2 b3 b4)

/-- The level that an item holds for ever after its runs: that of `H…` or `L…` (R77), and LOW for a
FRAME, which ends with `L…` (R78). -/
def RespItem.holds : RespItem → Option Level
  | .hold l => some l
  | .frame _ _ _ _ _ => some .low
  | .run _ => none
  | .ack _ _ => none
  | .bit _ => none
  | .firstBit _ => none

/-- The response that a `RESP` list writes: the runs of its items up to the first one that holds a level
for ever.  `x` is the level after a list that holds none (assumption 18). -/
def Response.ofItems (x : Level) : List RespItem → Response
  | [] => { runs := [], final := x }
  | i :: rest =>
    match i.holds with
    | some l => { runs := i.runs, final := l }
    | none =>
      { runs := i.runs ++ (Response.ofItems x rest).runs, final := (Response.ofItems x rest).final }

/-- The first `n` samples of a response. -/
def Response.samples (r : Response) (n : Nat) : List Level :=
  (List.range n).map fun j => r.sample (j + 1)

/-- A script's commands (R77, R78). -/
inductive ScriptCmd where
  | reset
  | read
  | nop (n : Nat)
  | waitDone
  | readWait
  | resp (items : List RespItem)
  deriving DecidableEq, Repr

/-- The driver: the block, the response in force, and the number of response samples already given
since the last accepted READ (`none` before the first tick in HS_LOW). -/
structure Driver where
  machine : State
  response : Response
  given : Option Nat
  deriving DecidableEq, Repr

/-- The number of the response sample due in this tick, if the response has begun (R77). -/
def Driver.due (d : Driver) : Option Nat :=
  match d.given with
  | some j => some (j + 1)
  | none => if d.machine.st = .hsLow then some 1 else none

/-- One tick of a script.  `x` is the level given where R77 writes `x` (assumption 18). -/
def Driver.tick (x : Level) (rst start : Bool) (d : Driver) : Host.Outcome Driver Fault Refusal :=
  let line := match d.due with
    | some j => d.response.sample j
    | none => x
  let accepted := !rst && start && decide (d.machine.st = .idle)
  match tickWith { rst := rst, start := start, line_in := line } d.machine with
  | .next t => .next { d with machine := t, given := if accepted then none else d.due }
  | .fault f => .fault f
  | .refused r => .refused r

/-- `n` NOP ticks. -/
def Driver.nops (x : Level) : Nat → Driver → Host.Outcome Driver Fault Refusal
  | 0, d => .next d
  | n + 1, d =>
    match d.tick x false false with
    | .next e => e.nops x n
    | .fault f => .fault f
    | .refused r => .refused r

/-- `WAIT_DONE`: NOP ticks up to and including the first tick with `done = 1`, at most `fuel + 1` of
them. -/
def Driver.wait (x : Level) : Nat → Driver → Host.Outcome Driver Fault Refusal
  | 0, d => d.tick x false false
  | fuel + 1, d =>
    if d.machine.done_q then d.tick x false false
    else
      match d.tick x false false with
      | .next e => e.wait x fuel
      | .fault f => .fault f
      | .refused r => .refused r

/-- One command of a script. -/
def Driver.cmd (x : Level) (fuel : Nat) (c : ScriptCmd) (d : Driver) :
    Host.Outcome Driver Fault Refusal :=
  match c with
  | .reset => d.tick x true false
  | .read => d.tick x false true
  | .nop n => d.nops x n
  | .waitDone => d.wait x fuel
  | .readWait =>
    match d.tick x false true with
    | .next e => e.wait x fuel
    | .fault f => .fault f
    | .refused r => .refused r
  | .resp items => .next { d with response := Response.ofItems x items }

/-- A script, command after command. -/
def Driver.script (x : Level) (fuel : Nat) : List ScriptCmd → Driver → Host.Outcome Driver Fault Refusal
  | [], d => .next d
  | c :: rest, d =>
    match d.cmd x fuel c with
    | .next e => e.script x fuel rest
    | .fault f => .fault f
    | .refused r => .refused r

end Sys2Proof.Machine
end

