-- ==== Sys2Proof/Machine/TransitionTable.lean ====
section
/-! DEFINITION. The complete transition table of 41_frame_decoder.md R130, transcribed row by row as a
relation, in numbers and without the operations the meanings use, so that `step` can be held against
it. -/

namespace Sys2Proof.Machine

/-- The table's `shreg` after bit `b`: twice the old value plus the bit, in 40 bits (R120). -/
def tableShift (f : Frame) (b : Bool) : Frame := BitVec.ofNat 40 (2 * f.toNat + b.toNat)

/-- The checksum in numbers (R150): the four high bytes add up to the low byte modulo 256. -/
def tableValid (f : Frame) : Prop :=
  (f.toNat / 2 ^ 32 % 256 + f.toNat / 2 ^ 24 % 256 + f.toNat / 2 ^ 16 % 256 + f.toNat / 2 ^ 8 % 256)
    % 256 = f.toNat % 256

/-- R164 as the table's "rule R164 with X": the timeout completion. -/
def tableTimeout (p : Phase) (s : State) : State :=
  { s with outcome_q := .timeout, phase_q := p, st := .idle, done_q := true, pt_cnt := 0 }

/-- R130 for `rst = 0`: `TableRow s w t` says that a row of the table takes the registers of `s` to
those of `t` on the input word `w`. -/
inductive TableRow : State → InputWord → State → Prop where
  | idleRead (s : State) (w : InputWord) : s.st = .idle → w.start = true →
      TableRow s w { s with st := .startLow, dly_cnt := 0, pt_cnt := 0, bit_cnt := 0, shreg := 0,
                            done_q := false }
  | idleNop (s : State) (w : InputWord) : s.st = .idle → w.start = false →
      TableRow s w { s with st := .idle, done_q := false }
  | startLowCount (s : State) (w : InputWord) : s.st = .startLow →
      s.dly_cnt.toNat < s.cfg.tStartLow - 1 →
      TableRow s w { s with dly_cnt := s.dly_cnt + 1, done_q := false }
  | startLowEnd (s : State) (w : InputWord) : s.st = .startLow →
      s.dly_cnt.toNat = s.cfg.tStartLow - 1 →
      TableRow s w { s with st := .startHigh, dly_cnt := 0, done_q := false }
  | startHighCount (s : State) (w : InputWord) : s.st = .startHigh →
      s.dly_cnt.toNat < s.cfg.tStartHigh - 1 →
      TableRow s w { s with dly_cnt := s.dly_cnt + 1, done_q := false }
  | startHighEnd (s : State) (w : InputWord) : s.st = .startHigh →
      s.dly_cnt.toNat = s.cfg.tStartHigh - 1 →
      TableRow s w { s with st := .hsLow, dly_cnt := 0, pt_cnt := 0, done_q := false }
  | hsLowBusy (s : State) (w : InputWord) : s.st = .hsLow → w.line_in = .high →
      s.pt_cnt.toNat + 1 < s.cfg.toHsLow →
      TableRow s w { s with pt_cnt := s.pt_cnt + 1, done_q := false }
  | hsLowDone (s : State) (w : InputWord) : s.st = .hsLow → w.line_in = .low →
      TableRow s w { s with st := .hsHigh, pt_cnt := 0, done_q := false }
  | hsLowTimeout (s : State) (w : InputWord) : s.st = .hsLow → w.line_in = .high →
      s.cfg.toHsLow ≤ s.pt_cnt.toNat + 1 →
      TableRow s w (tableTimeout .hsLow s)
  | hsHighBusy (s : State) (w : InputWord) : s.st = .hsHigh → w.line_in = .low →
      s.pt_cnt.toNat + 1 < s.cfg.toHsHigh →
      TableRow s w { s with pt_cnt := s.pt_cnt + 1, done_q := false }
  | hsHighDone (s : State) (w : InputWord) : s.st = .hsHigh → w.line_in = .high →
      TableRow s w { s with st := .bitLow, pt_cnt := 0, done_q := false }
  | hsHighTimeout (s : State) (w : InputWord) : s.st = .hsHigh → w.line_in = .low →
      s.cfg.toHsHigh ≤ s.pt_cnt.toNat + 1 →
      TableRow s w (tableTimeout .hsHigh s)
  | bitLowBusy (s : State) (w : InputWord) : s.st = .bitLow → w.line_in = .low →
      s.pt_cnt.toNat + 1 < s.cfg.toBitLow →
      TableRow s w { s with pt_cnt := s.pt_cnt + 1, done_q := false }
  | bitLowDone (s : State) (w : InputWord) : s.st = .bitLow → w.line_in = .high →
      TableRow s w { s with st := .bitHigh, pt_cnt := 0, done_q := false }
  | bitLowTimeout (s : State) (w : InputWord) : s.st = .bitLow → w.line_in = .low →
      s.cfg.toBitLow ≤ s.pt_cnt.toNat + 1 →
      TableRow s w (tableTimeout .bitLow s)
  | bitHighBusy (s : State) (w : InputWord) : s.st = .bitHigh → w.line_in = .high →
      s.pt_cnt.toNat + 1 < s.cfg.toBitHigh →
      TableRow s w { s with pt_cnt := s.pt_cnt + 1, done_q := false }
  | bitHighBit (s : State) (w : InputWord) (f : Frame) : s.st = .bitHigh → w.line_in = .low →
      s.bit_cnt.toNat < 39 →
      f = tableShift s.shreg (decide (s.cfg.bitThreshold < s.pt_cnt.toNat + 1)) →
      TableRow s w { s with st := .bitLow, pt_cnt := 0, shreg := f, bit_cnt := s.bit_cnt + 1,
                            done_q := false }
  | bitHighValid (s : State) (w : InputWord) (f : Frame) : s.st = .bitHigh → w.line_in = .low →
      s.bit_cnt.toNat = 39 →
      f = tableShift s.shreg (decide (s.cfg.bitThreshold < s.pt_cnt.toNat + 1)) → tableValid f →
      TableRow s w { s with st := .idle, pt_cnt := 0, shreg := f, bit_cnt := 40, frame_q := f,
                            outcome_q := .ok, done_q := true }
  | bitHighInvalid (s : State) (w : InputWord) (f : Frame) : s.st = .bitHigh → w.line_in = .low →
      s.bit_cnt.toNat = 39 →
      f = tableShift s.shreg (decide (s.cfg.bitThreshold < s.pt_cnt.toNat + 1)) → ¬tableValid f →
      TableRow s w { s with st := .idle, pt_cnt := 0, shreg := f, bit_cnt := 40, frame_q := f,
                            outcome_q := .checksum, done_q := true }
  | bitHighTimeout (s : State) (w : InputWord) : s.st = .bitHigh → w.line_in = .high →
      s.cfg.toBitHigh ≤ s.pt_cnt.toNat + 1 →
      TableRow s w (tableTimeout .bitHigh s)
  | unused (s : State) (w : InputWord) : s.st = .unused →
      TableRow s w { s with st := .idle, dly_cnt := 0, pt_cnt := 0, done_q := false }

end Sys2Proof.Machine
end

