-- ==== Sys2Proof/Safety.lean ====
section
/-! DEFINITION. What a safe run is, in the terms the statements use: runs of many steps, the reachable
states with the bits a transaction has received, the invariants of 10_state.md R40, and when two
states agree on what a step may depend on (41_frame_decoder.md R131). -/

namespace Sys2Proof.Machine

/-! ## Runs -/

/-- `n` steps, one after the other. -/
def runSteps : Nat → State → Host.Outcome State Fault Refusal
  | 0, s => .next s
  | n + 1, s =>
    match step s with
    | .next t => runSteps n t
    | .fault f => .fault f
    | .refused r => .refused r

/-- `n` ticks with the words of a list, scheduled for a state. -/
def scheduled (ws : List InputWord) (rest : List Stimulus) : List Stimulus := ws.map .tick ++ rest

/-- The outcome of a step that went on, with its stimulus used up. -/
def advanced (o : Host.Outcome State Fault Refusal) : Host.Outcome State Fault Refusal :=
  match o with
  | .next t => .next t.advance
  | .fault f => .fault f
  | .refused r => .refused r

/-- Ticks with the given input words, one after the other, with the host's log kept beside (R196). -/
def runLogged : List InputWord → State → HostLog → Host.Outcome (State × HostLog) Fault Refusal
  | [], s, h => .next (s, h)
  | w :: ws, s, h =>
    match tickWith w s with
    | .next t => runLogged ws t (h.after s w t)
    | .fault f => .fault f
    | .refused r => .refused r

/-! ## The bits received (R40 item 5) -/

/-- The bits a transaction has received after the step from `s`: READ and RESET start anew, and a low
sample in BIT_HIGH classifies one more bit (R110, R118, R119). -/
def receivedAfter (s : State) (bits : List Bool) : List Bool :=
  match s.present with
  | .tick w =>
    if w.rst then []
    else if s.st = .idle ∧ w.start = true then []
    else if s.st = .bitHigh ∧ w.line_in = .low then
      bits ++ [decide (s.cfg.bitThreshold < s.pt_cnt.toNat + 1)]
    else bits
  | .ptWord _ => bits
  | .ckWord _ => bits

/-- The number that bits make, the first one most significant (R40 item 5, R51). -/
def bitsValue (bits : List Bool) : Nat := bits.foldl (fun n b => 2 * n + b.toNat) 0

/-- `Reachable s bits`: some run from reset, under some well-formed configuration and with any ticks
scheduled or drawn free, is in `s`, and its current or last transaction has received `bits`. -/
inductive Reachable : State → List Bool → Prop where
  | reset (cfg : Config) (ws : List InputWord) (n : Nat) :
      Reachable { State.reset with cfg := cfg, inputs := ws.map .tick, tick := n } []
  | step (s t : State) (bits : List Bool) :
      Reachable s bits → step s = .next t → Reachable t (receivedAfter s bits)

/-! ## Invariants -/

/-- The state samples the line (R38). -/
def StateCode.sampling : StateCode → Bool
  | .hsLow => true
  | .hsHigh => true
  | .bitLow => true
  | .bitHigh => true
  | .idle => false
  | .startLow => false
  | .startHigh => false
  | .unused => false

/-- The invariants of R40, item by item, with what R121, R163 and R190 add about the published
registers.  The well-formedness of the configuration, R40's premise, is in its type. -/
structure Inv (s : State) : Prop where
  /-- no sub-unit is run on its own (assumption 4) -/
  ticksOnly : s.inputs.all Stimulus.isTick = true
  /-- item 1 -/
  stUsed : s.st ≠ .unused
  /-- item 2 -/
  dlyZero : s.st ≠ .startLow → s.st ≠ .startHigh → s.dly_cnt = 0
  dlyLow : s.st = .startLow → s.dly_cnt.toNat < s.cfg.tStartLow
  dlyHigh : s.st = .startHigh → s.dly_cnt.toNat < s.cfg.tStartHigh
  /-- item 3 -/
  ptZero : StateCode.sampling s.st = false → s.pt_cnt = 0
  ptBound : ∀ p : Phase, s.st = p.state → s.pt_cnt.toNat < p.timeoutTicks s.cfg
  /-- item 4 -/
  bitMax : s.bit_cnt.toNat ≤ 40
  bitStart : s.st = .startLow ∨ s.st = .startHigh ∨ s.st = .hsLow ∨ s.st = .hsHigh → s.bit_cnt = 0
  bitStream : s.st = .bitLow ∨ s.st = .bitHigh → s.bit_cnt.toNat ≤ 39
  /-- item 5, the part a single state shows: `shreg` holds `bit_cnt` bits -/
  shregBits : s.shreg.toNat < 2 ^ s.bit_cnt.toNat
  /-- item 6 -/
  doneIdle : s.done_q = true → s.st = .idle
  /-- item 7 -/
  idleFrame : s.st = .idle → s.outcome_q = .ok ∨ s.outcome_q = .checksum →
    s.bit_cnt = 40 ∧ s.frame_q = s.shreg
  idleTimeout : s.st = .idle → s.outcome_q = .timeout → s.bit_cnt.toNat ≤ 39
  idleNone : s.st = .idle → s.outcome_q = .none → s.bit_cnt = 0 ∧ s.shreg = 0 ∧ s.frame_q = 0
  /-- R121: the outcome says what the checksum of the published frame says -/
  okValid : s.outcome_q = .ok → ckValid s.frame_q = true
  checksumInvalid : s.outcome_q = .checksum → ckValid s.frame_q = false
  /-- R163, the row NONE -/
  noneClear : s.outcome_q = .none → s.phase_q = .hsLow ∧ s.frame_q = 0

/-! ## Waveforms (R126) -/

/-- The response of R126: `H×α L×γ H×η0`, then `L×λi H×ηi` for each pair `(λi, ηi)` of the list. -/
def waveform (alpha gamma eta0 : Nat) (widths : List (Nat × Nat)) : List LevelRun :=
  [⟨.high, alpha⟩, ⟨.low, gamma⟩, ⟨.high, eta0⟩] ++
    widths.flatMap fun p => [⟨.low, p.1⟩, ⟨.high, p.2⟩]

/-- R126's bounds on the handshake and the first high run. -/
def headFits (cfg : Config) (alpha gamma eta0 : Nat) : Prop :=
  alpha + 1 ≤ cfg.toHsLow ∧ 1 ≤ gamma ∧ gamma ≤ cfg.toHsHigh ∧ 2 ≤ eta0 ∧ eta0 - 1 ≤ cfg.toBitHigh

/-- R126's bounds on the bits after the first. -/
def widthsFit (cfg : Config) (widths : List (Nat × Nat)) : Prop :=
  ∀ p ∈ widths, 1 ≤ p.1 ∧ p.1 ≤ cfg.toBitLow ∧ 1 ≤ p.2 ∧ p.2 ≤ cfg.toBitHigh

/-- The bits that R126 gives a waveform. -/
def waveformBits (cfg : Config) (eta0 : Nat) (widths : List (Nat × Nat)) : List Bool :=
  decide (cfg.bitThreshold < eta0 - 1) :: widths.map fun p => decide (cfg.bitThreshold < p.2)

/-- A transaction is at response sample 1: HS_LOW has just begun (R125). -/
def atResponse (s : State) : Prop :=
  s.st = .hsLow ∧ s.pt_cnt = 0 ∧ s.bit_cnt = 0 ∧ s.shreg = 0

/-- The words `ws` are the coming ticks of `s`, none of them with `rst = 1`, and their line levels are
`levels`. -/
def feeds (s : State) (ws : List InputWord) (rest : List Stimulus) (levels : List Level) : Prop :=
  s.inputs = scheduled ws rest ∧ (∀ w ∈ ws, w.rst = false) ∧ ws.map InputWord.line_in = levels

/-- After `n` steps the transaction of `s` has ended with a timeout in phase `p`, `count` bits having
been received, and the published frame is as before (R164, R165). -/
def timesOutAfter (n : Nat) (s : State) (p : Phase) (count : Nat) : Prop :=
  ∃ t, runSteps n s = .next t ∧ t.st = .idle ∧ t.done_q = true ∧ t.outcome_q = .timeout ∧
    t.phase_q = p ∧ t.bit_cnt.toNat = count ∧ t.frame_q = s.frame_q

/-- The fewest ticks after the start sequence at which a transaction can end with the outcome and bit
count of `t`: one for each call before the last one, as R129 counts them, and the whole timeout of a
last call that timed out (R128); a complete frame has 82 calls. -/
def fewestTicks (t : State) : Nat :=
  match t.outcome_q, t.phase_q with
  | .timeout, .hsLow => t.cfg.toHsLow
  | .timeout, .hsHigh => 1 + t.cfg.toHsHigh
  | .timeout, .bitLow => 2 + 2 * t.bit_cnt.toNat + t.cfg.toBitLow
  | .timeout, .bitHigh => 3 + 2 * t.bit_cnt.toNat + t.cfg.toBitHigh
  | .none, _ => 82
  | .ok, _ => 82
  | .checksum, _ => 82

/-! ## When two states agree -/

/-- The two states have the same nine registers (R30). -/
def sameRegisters (s t : State) : Prop :=
  s.st = t.st ∧ s.dly_cnt = t.dly_cnt ∧ s.pt_cnt = t.pt_cnt ∧ s.bit_cnt = t.bit_cnt ∧
  s.shreg = t.shreg ∧ s.frame_q = t.frame_q ∧ s.outcome_q = t.outcome_q ∧
  s.phase_q = t.phase_q ∧ s.done_q = t.done_q

/-- The two states agree on the registers a transaction runs on; the retained status `frame_q`,
`outcome_q` and `phase_q` may differ (R41, R168). -/
def sameTransaction (s t : State) : Prop :=
  s.st = t.st ∧ s.dly_cnt = t.dly_cnt ∧ s.pt_cnt = t.pt_cnt ∧ s.bit_cnt = t.bit_cnt ∧
  s.shreg = t.shreg ∧ s.done_q = t.done_q

/-- The state operation of a state other than IDLE, on this tick's sample (R67, R111). -/
def stateOperation (b : BusyState) (line : Level) : Instr :=
  match b with
  | .startLow => .stateStartLow
  | .startHigh => .stateStartHigh
  | .hsLow => .stateHsLow line
  | .hsHigh => .stateHsHigh line
  | .bitLow => .stateBitLow line
  | .bitHigh => .stateBitHigh line
  | .unused => .stateUnused

end Sys2Proof.Machine
end

