-- ==== Sys2Proof/Certificates/Slice0/Obligations.lean ====
section
/-! DEFINITION. The statements for the provers.  Each docstring names the rule of spec/ it formalises;
where a statement rests on a choice of the model, the docstring names the log entry. -/

open Sys2Proof Sys2Proof.Machine

/-! ## Configuration and reset -/

/-- R9: a record of parameters can be built exactly when every parameter is in its range of R8. -/
def Obligations.ConfigIsBuiltExactlyWhenInRange : Prop :=
  ∀ p : Params,
    (∃ c, Config.build p = .ok c ∧ c.toParams = p) ↔
      (18000 ≤ p.tStartLow ∧ p.tStartLow ≤ 65535) ∧ (20 ≤ p.tStartHigh ∧ p.tStartHigh ≤ 40) ∧
      (1 ≤ p.toHsLow ∧ p.toHsLow ≤ 255) ∧ (1 ≤ p.toHsHigh ∧ p.toHsHigh ≤ 255) ∧
      (1 ≤ p.toBitLow ∧ p.toBitLow ≤ 255) ∧ (1 ≤ p.toBitHigh ∧ p.toBitHigh ≤ 255) ∧
      p.bitThreshold ≤ 254 ∧ p.bitThreshold < p.toBitHigh

/-- R30's reset column.  The state after reset also has the default configuration (assumption 3). -/
def Obligations.ResetStateHasTheTableValues : Prop :=
  State.reset.st = .idle ∧ State.reset.dly_cnt = 0 ∧ State.reset.pt_cnt = 0 ∧
  State.reset.bit_cnt = 0 ∧ State.reset.shreg = 0 ∧ State.reset.frame_q = 0 ∧
  State.reset.outcome_q = .none ∧ State.reset.phase_q = .hsLow ∧ State.reset.done_q = false ∧
  State.reset.cfg.toParams = ⟨20000, 30, 85, 85, 56, 75, 40⟩

/-- R190, R191: a tick with `rst = 1` in any state, whatever `start` and `line_in`, gives the reset
state and its outputs; so a reset wins over a completion in the same tick. -/
def Obligations.ResetTickGivesTheResetState : Prop :=
  ∀ (s : State) (w : InputWord), s.present = .tick w → w.rst = true →
    ∃ t, step s = .next t ∧ t.st = .idle ∧ t.dly_cnt = 0 ∧ t.pt_cnt = 0 ∧ t.bit_cnt = 0 ∧
      t.shreg = 0 ∧ t.frame_q = 0 ∧ t.outcome_q = .none ∧ t.phase_q = .hsLow ∧ t.done_q = false ∧
      t.cfg = s.cfg ∧
      t.outputs = { line_oe := false, line_out := .low, busy := false, done := false, outcome := 0,
                    err_phase := 0, bit_count := 0, frame := 0, fsm_state := 0 } ∧
      t.status = 0x0000#16

/-- The RESET row completes in every state, with every register at R30's value.  The configuration and
the outside world's schedule and tick number stay (assumptions 1 and 3). -/
def Obligations.ResetInstructionCompletes : Prop :=
  ∀ s : State, exec .reset s = .next
    { st := .idle, dly_cnt := 0, pt_cnt := 0, bit_cnt := 0, shreg := 0, frame_q := 0,
      outcome_q := .none, phase_q := .hsLow, done_q := false, cfg := s.cfg, inputs := s.inputs,
      tick := s.tick, unit_result := none }

/-- R192: one tick of `rst = 1` is enough, and every further one keeps the reset state. -/
def Obligations.HeldResetKeepsTheResetState : Prop :=
  ∀ (s : State) (ws : List InputWord) (rest : List Stimulus),
    s.inputs = scheduled ws rest → ws ≠ [] → (∀ w ∈ ws, w.rst = true) →
    runSteps ws.length s = .next
      { State.reset with cfg := s.cfg, inputs := rest, tick := s.tick + ws.length }

/-- R195: after reset the block is in IDLE with the line released; and in IDLE the block stays there with the line released, for any `line_in`, until `start`;
nothing but `done` changes. -/
def Obligations.IdleStaysIdleUntilStart : Prop :=
  State.reset.st = .idle ∧ State.reset.line_oe = false ∧ State.reset.outcome_q = .none ∧
  ∀ (s : State) (ws : List InputWord) (rest : List Stimulus),
    s.st = .idle → s.inputs = scheduled ws rest →
    (∀ w ∈ ws, w.rst = false ∧ w.start = false) →
    ∃ t, runSteps ws.length s = .next t ∧ t.st = .idle ∧ t.line_oe = false ∧
      t = { s with done_q := if ws = [] then s.done_q else false, inputs := rest,
                   tick := s.tick + ws.length }

/-! ## Commands and the start sequence -/

/-- R110: READ in IDLE starts a transaction; `outcome_q`, `phase_q` and `frame_q` stay, `line_in` is
ignored, and from the next tick the block is busy and drives the line low. -/
def Obligations.ReadStartsATransaction : Prop :=
  (∀ s : State, exec .read s = .next
    { s with st := .startLow, dly_cnt := 0, pt_cnt := 0, bit_cnt := 0, shreg := 0,
             done_q := false }) ∧
  (∀ (s : State) (w : InputWord), s.present = .tick w → w.rst = false → w.start = true →
    s.st = .idle →
    ∃ t, step s = .next t ∧ t = ({ s with st := .startLow, dly_cnt := 0, pt_cnt := 0, bit_cnt := 0,
                                          shreg := 0, done_q := false }).advance ∧
      t.outputs.busy = true ∧ t.outputs.done = false ∧ t.outputs.outcome = s.outputs.outcome ∧
      t.outputs.err_phase = s.outputs.err_phase ∧ t.outputs.frame = s.outputs.frame ∧
      t.outputs.line_oe = true ∧ t.outputs.line_out = .low)

/-- R111: READ while busy is exactly the state operation of `st`, as if `start = 0`; and it completes. -/
def Obligations.ReadWhileBusyIsTheStateOperation : Prop :=
  (∀ (b : BusyState) (line : Level) (s : State),
    ∃ t, exec (.readBusy b line) s = .next t ∧ exec (stateOperation b line) s = .next t) ∧
  (∀ (s : State) (w : InputWord) (rest : List Stimulus), s.st ≠ .idle → w.rst = false →
    step { s with inputs := .tick { w with start := true } :: rest } =
      step { s with inputs := .tick { w with start := false } :: rest })

/-- R112: NOP in IDLE writes `done_q` and nothing else. -/
def Obligations.NopInIdleOnlyClearsDone : Prop :=
  (∀ s : State, exec .nop s = .next { s with done_q := false }) ∧
  (∀ (s : State) (w : InputWord), s.present = .tick w → w.rst = false → w.start = false →
    s.st = .idle → step s = .next ({ s with done_q := false }).advance)

/-- R113: START_LOW counts `dly_cnt` up to `T_START_LOW - 1`, then goes to START_HIGH; the line is
driven low meanwhile, and the counter does not wrap. -/
def Obligations.StartLowCountsItsDelay : Prop :=
  ∀ s : State,
    (s.dly_cnt.toNat = s.cfg.tStartLow - 1 →
      exec .stateStartLow s = .next { s with st := .startHigh, dly_cnt := 0, done_q := false }) ∧
    (s.dly_cnt.toNat ≠ s.cfg.tStartLow - 1 →
      exec .stateStartLow s = .next { s with dly_cnt := s.dly_cnt + 1, done_q := false }) ∧
    (s.dly_cnt.toNat < s.cfg.tStartLow - 1 →
      (s.dly_cnt + 1).toNat = s.dly_cnt.toNat + 1) ∧
    (s.st = .startLow → s.line_oe = true ∧ s.line_out = .low)

/-- R114: START_HIGH counts `dly_cnt` up to `T_START_HIGH - 1`, then goes to HS_LOW, where the first
pulse-timer call begins and the line is released; the line is driven high meanwhile. -/
def Obligations.StartHighCountsItsDelay : Prop :=
  ∀ s : State,
    (s.dly_cnt.toNat = s.cfg.tStartHigh - 1 →
      ∃ t, exec .stateStartHigh s = .next t ∧
        t = { s with st := .hsLow, dly_cnt := 0, pt_cnt := 0, done_q := false } ∧
        t.line_oe = false) ∧
    (s.dly_cnt.toNat ≠ s.cfg.tStartHigh - 1 →
      exec .stateStartHigh s = .next { s with dly_cnt := s.dly_cnt + 1, done_q := false }) ∧
    (s.st = .startHigh → s.line_oe = true ∧ s.line_out = .high)

/-- R124: code 7 goes to IDLE in one step, with the counters cleared; in it the line is released and
the block is busy. -/
def Obligations.UnusedCodeRecoversToIdle : Prop :=
  ∀ s : State,
    exec .stateUnused s = .next { s with st := .idle, dly_cnt := 0, pt_cnt := 0, done_q := false } ∧
    (s.st = .unused → s.line_oe = false ∧ s.busy = true)

/-! ## The pulse-timer states -/

/-- R71, R72: the fixed target and timeout of each pulse-timer state, and the PT words that the
defaults give. -/
def Obligations.StepTableGivesThePtWords : Prop :=
  (∀ cfg : Config,
    Phase.hsLow.ptWord cfg = 1#1 ++ BitVec.ofNat 8 cfg.toHsLow ∧
    Phase.hsHigh.ptWord cfg = 0#1 ++ BitVec.ofNat 8 cfg.toHsHigh ∧
    Phase.bitLow.ptWord cfg = 0#1 ++ BitVec.ofNat 8 cfg.toBitLow ∧
    Phase.bitHigh.ptWord cfg = 1#1 ++ BitVec.ofNat 8 cfg.toBitHigh ∧
    (∀ p : Phase, (p.timeout cfg).toNat = p.timeoutTicks cfg ∧ p.timeout cfg ≠ 0)) ∧
  (Phase.hsLow.code, Phase.hsHigh.code, Phase.bitLow.code, Phase.bitHigh.code) =
    (0b00#2, 0b01#2, 0b10#2, 0b11#2) ∧
  (Phase.hsLow.state, Phase.hsHigh.state, Phase.bitLow.state, Phase.bitHigh.state) =
    (.hsLow, .hsHigh, .bitLow, .bitHigh) ∧
  Phase.hsLow.ptWord Config.default = 0x155#9 ∧ Phase.hsHigh.ptWord Config.default = 0x055#9 ∧
  Phase.bitLow.ptWord Config.default = 0x038#9 ∧ Phase.bitHigh.ptWord Config.default = 0x14B#9

/-- R115: HS_LOW waits while the line is high, at most `TO_HS_LOW` samples. -/
def Obligations.HsLowWaitsForTheLineToFall : Prop :=
  ∀ (s : State) (line : Level),
    (line = .low →
      exec (.stateHsLow line) s = .next { s with st := .hsHigh, pt_cnt := 0, done_q := false }) ∧
    (line = .high → s.pt_cnt.toNat + 1 < s.cfg.toHsLow →
      exec (.stateHsLow line) s = .next { s with pt_cnt := s.pt_cnt + 1, done_q := false }) ∧
    (line = .high → s.cfg.toHsLow ≤ s.pt_cnt.toNat + 1 →
      exec (.stateHsLow line) s = .next
        { s with outcome_q := .timeout, phase_q := .hsLow, st := .idle, done_q := true,
                 pt_cnt := 0 })

/-- R116: HS_HIGH waits while the line is low, at most `TO_HS_HIGH` samples. -/
def Obligations.HsHighWaitsForTheLineToRise : Prop :=
  ∀ (s : State) (line : Level),
    (line = .high →
      exec (.stateHsHigh line) s = .next { s with st := .bitLow, pt_cnt := 0, done_q := false }) ∧
    (line = .low → s.pt_cnt.toNat + 1 < s.cfg.toHsHigh →
      exec (.stateHsHigh line) s = .next { s with pt_cnt := s.pt_cnt + 1, done_q := false }) ∧
    (line = .low → s.cfg.toHsHigh ≤ s.pt_cnt.toNat + 1 →
      exec (.stateHsHigh line) s = .next
        { s with outcome_q := .timeout, phase_q := .hsHigh, st := .idle, done_q := true,
                 pt_cnt := 0 })

/-- R117: BIT_LOW measures a low phase, at most `TO_BIT_LOW` samples; its length is not stored and
`bit_cnt` stays. -/
def Obligations.BitLowMeasuresALowPhase : Prop :=
  ∀ (s : State) (line : Level),
    (line = .high →
      exec (.stateBitLow line) s = .next { s with st := .bitHigh, pt_cnt := 0, done_q := false }) ∧
    (line = .low → s.pt_cnt.toNat + 1 < s.cfg.toBitLow →
      exec (.stateBitLow line) s = .next { s with pt_cnt := s.pt_cnt + 1, done_q := false }) ∧
    (line = .low → s.cfg.toBitLow ≤ s.pt_cnt.toNat + 1 →
      exec (.stateBitLow line) s = .next
        { s with outcome_q := .timeout, phase_q := .bitLow, st := .idle, done_q := true,
                 pt_cnt := 0 })

/-- R118 with R121: BIT_HIGH measures a high phase of `e = pt_cnt + 1`; its end assembles the bit
`e > BIT_THRESHOLD` into the low end of `shreg`, and the 40th bit publishes the frame with the outcome
of its checksum. -/
def Obligations.BitHighClassifiesAndAssembles : Prop :=
  ∀ (s : State) (line : Level) (f : Frame),
    f = s.shreg.extractLsb' 0 39 ++
      BitVec.ofBool (decide (s.pt_cnt.toNat + 1 > s.cfg.bitThreshold)) →
    (line = .high → s.pt_cnt.toNat + 1 < s.cfg.toBitHigh →
      exec (.stateBitHigh line) s = .next { s with pt_cnt := s.pt_cnt + 1, done_q := false }) ∧
    (line = .high → s.cfg.toBitHigh ≤ s.pt_cnt.toNat + 1 →
      exec (.stateBitHigh line) s = .next
        { s with outcome_q := .timeout, phase_q := .bitHigh, st := .idle, done_q := true,
                 pt_cnt := 0 }) ∧
    (line = .low → s.bit_cnt ≠ 39 →
      exec (.stateBitHigh line) s = .next
        { s with st := .bitLow, pt_cnt := 0, shreg := f, bit_cnt := s.bit_cnt + 1,
                 done_q := false }) ∧
    (line = .low → s.bit_cnt = 39 → ckValid f = true →
      exec (.stateBitHigh line) s = .next
        { s with st := .idle, pt_cnt := 0, shreg := f, bit_cnt := 40, frame_q := f,
                 outcome_q := .ok, done_q := true }) ∧
    (line = .low → s.bit_cnt = 39 → ckValid f = false →
      exec (.stateBitHigh line) s = .next
        { s with st := .idle, pt_cnt := 0, shreg := f, bit_cnt := 40, frame_q := f,
                 outcome_q := .checksum, done_q := true })

/-- R119: the comparison is strict; with the default threshold 1..40 give `0` and 41..75 give `1`. -/
def Obligations.ClassificationIsStrict : Prop :=
  (∀ (cfg : Config) (e : Nat), classify cfg e = true ↔ e > cfg.bitThreshold) ∧
  (∀ e : Nat, 1 ≤ e → e ≤ 40 → classify Config.default e = false) ∧
  (∀ e : Nat, 41 ≤ e → e ≤ 75 → classify Config.default e = true)

/-- R51: forty bits shifted into any register stand with the `k`-th one received in register bit
`39 - k`, which is bit `7 - (k mod 8)` of byte `k / 8`; and byte `j` is bits `[39-8j : 32-8j]`. -/
def Obligations.BitsAreAssembledMostSignificantFirst : Prop :=
  (∀ (f : Frame) (bits : List Bool) (k : Nat), bits.length = 40 → k < 40 →
    some ((bits.foldl shiftIn f).getLsbD (39 - k)) = bits[k]? ∧
    some ((frameByte (bits.foldl shiftIn f) (k / 8)).getLsbD (7 - k % 8)) = bits[k]?) ∧
  (∀ (f : Frame) (j : Nat), j < 5 → frameByte f j = f.extractLsb' (32 - 8 * j) 8) ∧
  (∀ (f : Frame) (b : Bool), shiftIn f b = f.extractLsb' 0 39 ++ BitVec.ofBool b) ∧
  frameOfBytes 45 0 23 0 68 = 0x2D00170044#40

/-! ## PWT -/

/-- R91, R92: `PT_eval`, the level test before the timeout test, with no wrap of the count. -/
def Obligations.PulseTimerEvaluation : Prop :=
  ∀ (target : Level) (timeout count : BitVec 8) (sample : Level),
    (sample ≠ target →
      ptEval target timeout count sample = (.done (count.toNat + 1), 0)) ∧
    (sample = target → timeout.toNat ≤ count.toNat + 1 →
      ptEval target timeout count sample = (.timeout, 0)) ∧
    (sample = target → count.toNat + 1 < timeout.toNat →
      ptEval target timeout count sample = (.busy, count + 1) ∧
      (count + 1).toNat = count.toNat + 1)

/-- R97: a DONE result is in `1..T` for every count a call can hold. -/
def Obligations.PulseTimerDoneIsInRange : Prop :=
  ∀ (target : Level) (timeout count : BitVec 8) (sample : Level) (e : Nat) (next : BitVec 8),
    count.toNat < timeout.toNat →
    ptEval target timeout count sample = (.done e, next) → 1 ≤ e ∧ e ≤ timeout.toNat ∧ next = 0

/-- PT.MEASURE run on its own completes in every state, writes `pt_cnt` alone of the nine registers,
and leaves its result in the model's own field (the model's choice, assumptions 4 and 5). -/
def Obligations.PtMeasureWritesOnlyPtCnt : Prop :=
  ∀ (target : Level) (timeout : BitVec 8) (s : State),
    (s.sample ≠ target →
      exec (.ptMeasure target timeout) s = .next
        { s with pt_cnt := 0, unit_result := some (.pulse (.done (s.pt_cnt.toNat + 1))) }) ∧
    (s.sample = target → timeout.toNat ≤ s.pt_cnt.toNat + 1 →
      exec (.ptMeasure target timeout) s = .next
        { s with pt_cnt := 0, unit_result := some (.pulse .timeout) }) ∧
    (s.sample = target → s.pt_cnt.toNat + 1 < timeout.toNat →
      exec (.ptMeasure target timeout) s = .next
        { s with pt_cnt := s.pt_cnt + 1, unit_result := some (.pulse .busy) })

/-- R95, R96: a call of the pulse timer that has just begun.  Samples at the target level only count,
the first sample away from it at `k ≤ T` ends the call with DONE(`k`), and `T` samples at the target end
it with TIMEOUT at exactly elapsed count `T`. -/
def Obligations.PulseTimerCallClosedForm : Prop :=
  ∀ (p : Phase) (s : State) (ws : List InputWord) (rest : List Stimulus),
    s.st = p.state → s.pt_cnt = 0 → s.inputs = scheduled ws rest →
    (∀ w ∈ ws, w.rst = false) → (∀ w ∈ ws, w.line_in = p.target) →
    (ws.length < p.timeoutTicks s.cfg →
      runSteps ws.length s = .next
        { s with pt_cnt := BitVec.ofNat 8 ws.length,
                 done_q := if ws = [] then s.done_q else false,
                 inputs := rest, tick := s.tick + ws.length }) ∧
    (ws.length < p.timeoutTicks s.cfg →
      ∀ (w : InputWord) (rest' : List Stimulus), rest = .tick w :: rest' → w.rst = false →
        w.line_in ≠ p.target →
        ∃ u t, runSteps ws.length s = .next u ∧ step u = .next t ∧
          ptEval p.target (p.timeout u.cfg) u.pt_cnt w.line_in = (.done (ws.length + 1), 0) ∧
          t.pt_cnt = 0 ∧ t.st ≠ p.state ∧ ¬(t.done_q = true ∧ t.outcome_q = .timeout)) ∧
    (ws.length = p.timeoutTicks s.cfg →
      runSteps ws.length s = .next
        { s with outcome_q := .timeout, phase_q := p, st := .idle, done_q := true, pt_cnt := 0,
                 inputs := rest, tick := s.tick + ws.length })

/-! ## CKV -/

/-- R150, R154: a frame is Valid exactly when its four payload bytes, fraction bytes included, add up
to byte 4 modulo 256. -/
def Obligations.ChecksumIsTheByteSum : Prop :=
  ∀ b0 b1 b2 b3 b4 : Byte,
    (ckSum (frameOfBytes b0 b1 b2 b3 b4)).toNat =
      (b0.toNat + b1.toNat + b2.toNat + b3.toNat) % 256 ∧
    (ckValid (frameOfBytes b0 b1 b2 b3 b4) = true ↔
      (b0.toNat + b1.toNat + b2.toNat + b3.toNat) % 256 = b4.toNat)

/-- CK.VALIDATE run on its own completes in every state and writes none of the nine registers; its
verdict is left in the model's own field (the model's choice, assumptions 4 and 5). -/
def Obligations.CkValidateWritesNoRegister : Prop :=
  ∀ (b0 b1 b2 b3 b4 : Byte) (s : State),
    exec (.ckValidate (frameOfBytes b0 b1 b2 b3 b4)) s = .next
      { s with unit_result := some (.valid (decide
        ((b0.toNat + b1.toNat + b2.toNat + b3.toNat) % 256 = b4.toNat))) }

/-- R155: flipping any one of the 40 bits of a Valid frame gives an Invalid one, and two flips can
cancel. -/
def Obligations.OneFlippedBitIsDetected : Prop :=
  (∀ (f : Frame) (k : Nat), k < 40 → ckValid f = true → ckValid (f ^^^ (1#40 <<< k)) = false) ∧
  (∃ (f : Frame) (j k : Nat), j < 40 ∧ k < 40 ∧ j ≠ k ∧ ckValid f = true ∧
    ckValid (f ^^^ (1#40 <<< j) ^^^ (1#40 <<< k)) = true)

/-! ## Ports -/

/-- R32 to R35: the outputs as functions of the state, with the codes that the ports `outcome`,
`err_phase` and `fsm_state` show (the code columns of R69, R70 and R68). -/
def Obligations.OutputsFollowTheRegisters : Prop :=
  (OutcomeClass.none.code, OutcomeClass.ok.code, OutcomeClass.timeout.code,
    OutcomeClass.checksum.code) = (0b00#2, 0b01#2, 0b10#2, 0b11#2) ∧
  (Phase.hsLow.code, Phase.hsHigh.code, Phase.bitLow.code, Phase.bitHigh.code) =
    (0b00#2, 0b01#2, 0b10#2, 0b11#2) ∧
  (StateCode.idle.code, StateCode.startLow.code, StateCode.startHigh.code, StateCode.hsLow.code) =
    (0b000#3, 0b001#3, 0b010#3, 0b011#3) ∧
  (StateCode.hsHigh.code, StateCode.bitLow.code, StateCode.bitHigh.code, StateCode.unused.code) =
    (0b100#3, 0b101#3, 0b110#3, 0b111#3) ∧
  ∀ s : State,
    (s.outputs.line_oe = true ↔ s.st = .startLow ∨ s.st = .startHigh) ∧
    (s.outputs.line_out = .high ↔ s.st = .startHigh) ∧
    (s.outputs.busy = true ↔ s.st ≠ .idle) ∧
    s.outputs.done = s.done_q ∧ s.outputs.outcome = s.outcome_q.code ∧
    s.outputs.err_phase = s.phase_q.code ∧ s.outputs.bit_count = s.bit_cnt ∧
    s.outputs.frame = s.frame_q ∧ s.outputs.fsm_state = s.st.code

/-- R74: the fields of STATUS. -/
def Obligations.StatusPacksTheOutputs : Prop :=
  ∀ s : State,
    s.status.getLsbD 15 = s.outputs.busy ∧ s.status.getLsbD 14 = s.outputs.done ∧
    s.status.extractLsb' 12 2 = s.outputs.outcome ∧
    s.status.extractLsb' 10 2 = s.outputs.err_phase ∧
    s.status.extractLsb' 4 6 = s.outputs.bit_count ∧ s.status.getLsbD 3 = false ∧
    s.status.extractLsb' 0 3 = s.outputs.fsm_state

/-! ## Encoding -/

/-- Words written out from opcode_table.json and R72 decode to the instructions they stand for.  That a
word in 8 bits is read as CMD6, in 16 as PT9 and in 40 as CK40 is the model's choice (assumption 9). -/
def Obligations.WordsOfTheTableDecode : Prop :=
  decodeTableWord 8 0b000100 = some .reset ∧ decodeTableWord 8 0b110111 = some .reset ∧
  decodeTableWord 8 0b000011 = some .read ∧ decodeTableWord 8 0b001011 = some (.readBusy .startLow .high) ∧
  decodeTableWord 8 0b000001 = some .nop ∧ decodeTableWord 8 0b011001 = some (.stateHsLow .high) ∧
  decodeTableWord 8 0b110000 = some (.stateBitHigh .low) ∧ decodeTableWord 8 0b111000 = some .stateUnused ∧
  decodeTableWord 16 0x14B = some (.ptMeasure .high 75) ∧
  decodeTableWord 40 0x2D00170044 = some (.ckValidate 0x2D00170044#40)

/-- R67: which command a tick's word is, in the priority order of the table. -/
def Obligations.CommandPriority : Prop :=
  ∀ (st : StateCode) (w : InputWord),
    (w.rst = true → decode (.cmd6 (cmd6Word st w)) = .reset) ∧
    (w.rst = false → w.start = true → st = .idle → decode (.cmd6 (cmd6Word st w)) = .read) ∧
    (w.rst = false → w.start = false → st = .idle → decode (.cmd6 (cmd6Word st w)) = .nop) ∧
    (∀ b : BusyState, st = b.state → w.rst = false → w.start = true →
      decode (.cmd6 (cmd6Word st w)) = .readBusy b w.line_in) ∧
    (∀ b : BusyState, st = b.state → w.rst = false → w.start = false →
      decode (.cmd6 (cmd6Word st w)) = stateOperation b w.line_in)

/-- R79: every CMD6 word matches a row of opcode_table.json, and the first row that matches decides. -/
def Obligations.FirstMatchingRowDecides : Prop :=
  ∀ w : BitVec 6,
    (cmd6Table.find? fun r => r.hits w).map Cmd6Row.mnemonic = some (decodeCmd6 w).mnemonic

/-- Decode and encode agree: for every instruction, with every operand at every value, the decoder
reads back from its word exactly that instruction.  The second and third clause give the word as bits,
in the format's own width and in whole bytes: that the number of bits (6 or 8, 9 or 16, 40) tells the
three formats apart is the model's choice (assumption 9), not the spec's. -/
def Obligations.DecodeEncodeRoundTrip : Prop :=
  ∀ i : Instr,
    decode (encode i) = i ∧
    decodeTableWord (encode i).width (encode i).toNat = some i ∧
    decodeTableWord (8 * (((encode i).width + 7) / 8)) (encode i).toNat = some i

/-! ## The step -/

/-- A step runs the decoded instruction, whatever is presented: a tick's CMD6 word, or a word given to a
sub-unit (assumption 4); around `exec` it only uses up the stimulus. -/
def Obligations.StepRunsTheDecodedInstruction : Prop :=
  ∀ (s : State) (i : Instr), decode s.fetchWord = i →
    step s = advanced (exec i s) ∧
    (∀ w, s.present = .tick w → s.fetchWord = .cmd6 (cmd6Word s.st w) ∧ s.sample = w.line_in) ∧
    (∀ w, s.present = .ptWord w → s.fetchWord = .pt9 w) ∧
    (∀ w, s.present = .ckWord w → s.fetchWord = .ck40 w) ∧
    s.advance.inputs = s.inputs.tail ∧ sameRegisters s.advance s

/-- R131, "It is total": every state, with whatever is presented, has a successor; no step faults or is
refused. -/
def Obligations.StepIsTotal : Prop :=
  ∀ s : State, ∃ t, step s = .next t

/-- R131, "It is deterministic": the nine registers after a tick depend only on the configuration, the
nine registers before and the input word; the model's own fields have no say. -/
def Obligations.RegistersDependOnlyOnConfigStateAndInput : Prop :=
  ∀ (s1 s2 t1 t2 : State) (w : InputWord),
    sameRegisters s1 s2 → s1.cfg = s2.cfg → s1.present = .tick w → s2.present = .tick w →
    step s1 = .next t1 → step s2 = .next t2 → sameRegisters t1 t2

/-- R130: on every state that meets the invariants, a tick without reset does exactly what a row of the
complete transition table says. -/
def Obligations.StepIsTheTransitionTable : Prop :=
  ∀ (s t : State) (w : InputWord), Inv s → s.present = .tick w → w.rst = false →
    (step s = .next t ↔ ∃ u, TableRow s w u ∧ t = u.advance)

/-- R37, R41: no step changes the configuration. -/
def Obligations.NoStepChangesTheConfiguration : Prop :=
  ∀ s t : State, step s = .next t → t.cfg = s.cfg

/-- R38: outside the four pulse-timer states the value of `line_in` is ignored. -/
def Obligations.LineIsIgnoredOutsidePulseStates : Prop :=
  ∀ (s : State) (w : InputWord) (l : Level) (rest : List Stimulus),
    s.st ≠ .hsLow → s.st ≠ .hsHigh → s.st ≠ .bitLow → s.st ≠ .bitHigh →
    step { s with inputs := .tick w :: rest } =
      step { s with inputs := .tick { w with line_in := l } :: rest }

/-! ## Completions -/

/-- R122: a busy block returns to IDLE only by a reset, by `finish_frame`, or by the timeout of the
phase it is in. -/
def Obligations.BusyEndsOnlyByCompletionOrReset : Prop :=
  ∀ (s t : State) (w : InputWord), s.present = .tick w → s.st ≠ .idle → s.st ≠ .unused →
    step s = .next t → t.st = .idle →
    w.rst = true ∨
    (t.done_q = true ∧ s.st = .bitHigh ∧ (t.outcome_q = .ok ∨ t.outcome_q = .checksum) ∧
      t.bit_cnt = 40 ∧ t.frame_q = t.shreg) ∨
    (t.done_q = true ∧ t.outcome_q = .timeout ∧ s.st = t.phase_q.state)

/-- R29: after a tick `done_q` is 1 exactly when that tick's step completed a transaction: it left a
pulse-timer state for IDLE without a reset. -/
def Obligations.DoneMarksExactlyTheCompletions : Prop :=
  ∀ (s t : State) (w : InputWord), s.present = .tick w → step s = .next t →
    (t.done_q = true ↔
      w.rst = false ∧ (s.st = .hsLow ∨ s.st = .hsHigh ∨ s.st = .bitLow ∨ s.st = .bitHigh) ∧
      t.st = .idle)

/-- R54, R163, R166: a completion publishes everything in one step.  A full frame carries the outcome of
its own checksum and leaves `phase_q`; a timeout names its phase and leaves `frame_q`, `shreg`,
`bit_cnt` and `dly_cnt`. -/
def Obligations.CompletionPublishesInOneStep : Prop :=
  ∀ (s t : State) (w : InputWord), s.present = .tick w → step s = .next t → t.done_q = true →
    t.st = .idle ∧ t.busy = false ∧ t.pt_cnt = 0 ∧ t.dly_cnt = s.dly_cnt ∧
    ((s.st = .bitHigh ∧ s.bit_cnt = 39 ∧ w.line_in = .low ∧ t.bit_cnt = 40 ∧ t.frame_q = t.shreg ∧
        t.phase_q = s.phase_q ∧ t.outcome_q = (if ckValid t.frame_q then .ok else .checksum)) ∨
     (t.outcome_q = .timeout ∧ s.st = t.phase_q.state ∧ w.line_in = t.phase_q.target ∧
        t.phase_q.timeoutTicks s.cfg ≤ s.pt_cnt.toNat + 1 ∧ t.frame_q = s.frame_q ∧
        t.shreg = s.shreg ∧ t.bit_cnt = s.bit_cnt))

/-- R27, R28 and R26: the published registers change only at a reset or at a completion, `phase_q` only
at a timeout and `frame_q` only at the end of a full frame. -/
def Obligations.PublishedRegistersChangeOnlyAtCompletions : Prop :=
  ∀ (s t : State) (w : InputWord), s.present = .tick w → step s = .next t →
    (w.rst = true → t.outcome_q = .none ∧ t.phase_q = .hsLow ∧ t.frame_q = 0) ∧
    (w.rst = false →
      (t.outcome_q ≠ s.outcome_q → t.done_q = true) ∧
      (t.phase_q ≠ s.phase_q → t.done_q = true ∧ t.outcome_q = .timeout) ∧
      (t.frame_q ≠ s.frame_q →
        t.done_q = true ∧ (t.outcome_q = .ok ∨ t.outcome_q = .checksum) ∧ t.bit_cnt = 40))

/-! ## Invariants -/

/-- The invariants hold right after reset. -/
def Obligations.ResetMeetsTheInvariants : Prop := Inv State.reset

/-- Every step keeps the invariants of R40 (with what R121 and R163 add), from every state that meets
them. -/
def Obligations.EveryStepKeepsTheInvariants : Prop :=
  ∀ s t : State, Inv s → step s = .next t → Inv t

/-- R40, items 1 to 7, for every state that any run reaches from reset under any well-formed
configuration; item 5 says which bits `shreg` holds. -/
def Obligations.ReachableStatesMeetTheSevenItems : Prop :=
  ∀ (s : State) (bits : List Bool), Reachable s bits →
    s.st ≠ .unused ∧
    (s.st ≠ .startLow → s.st ≠ .startHigh → s.dly_cnt = 0) ∧
    (s.st = .startLow → s.dly_cnt.toNat < s.cfg.tStartLow) ∧
    (s.st = .startHigh → s.dly_cnt.toNat < s.cfg.tStartHigh) ∧
    ((∀ p : Phase, s.st ≠ p.state) → s.pt_cnt = 0) ∧
    (∀ p : Phase, s.st = p.state → s.pt_cnt.toNat < p.timeoutTicks s.cfg) ∧
    s.bit_cnt.toNat ≤ 40 ∧
    (s.st = .startLow ∨ s.st = .startHigh ∨ s.st = .hsLow ∨ s.st = .hsHigh → s.bit_cnt = 0) ∧
    (s.st = .bitLow ∨ s.st = .bitHigh → s.bit_cnt.toNat ≤ 39) ∧
    bits.length = s.bit_cnt.toNat ∧ s.shreg.toNat = bitsValue bits ∧
    (s.done_q = true → s.st = .idle) ∧
    (s.st = .idle → s.outcome_q = .ok ∨ s.outcome_q = .checksum →
      s.bit_cnt = 40 ∧ s.frame_q = s.shreg) ∧
    (s.st = .idle → s.outcome_q = .timeout → s.bit_cnt.toNat ≤ 39) ∧
    (s.st = .idle → s.outcome_q = .none → s.bit_cnt = 0 ∧ s.shreg = 0 ∧ s.frame_q = 0)

/-! ## Whole transactions -/

/-- R125: from a READ in IDLE the line is driven low for `T_START_LOW` ticks, then high for
`T_START_HIGH` ticks, then released with the HS_LOW call beginning. -/
def Obligations.StartSequenceTimeline : Prop :=
  ∀ (s : State) (r : InputWord) (ws : List InputWord) (rest : List Stimulus),
    s.st = .idle → r.rst = false → r.start = true → (∀ w ∈ ws, w.rst = false) →
    s.inputs = scheduled (r :: ws) rest → ws.length = s.cfg.tStartLow + s.cfg.tStartHigh →
    (∀ k, 1 ≤ k → k ≤ s.cfg.tStartLow →
      ∃ u, runSteps k s = .next u ∧ u.line_oe = true ∧ u.line_out = .low) ∧
    (∀ k, s.cfg.tStartLow + 1 ≤ k → k ≤ s.cfg.tStartLow + s.cfg.tStartHigh →
      ∃ u, runSteps k s = .next u ∧ u.line_oe = true ∧ u.line_out = .high) ∧
    ∃ t, runSteps (ws.length + 1) s = .next t ∧ t.line_oe = false ∧ atResponse t ∧
      t.dly_cnt = 0 ∧ t.done_q = false ∧ t.inputs = rest ∧ t.outcome_q = s.outcome_q ∧
      t.phase_q = s.phase_q ∧ t.frame_q = s.frame_q ∧ t.cfg = s.cfg

/-- R126 with R128: a line of the form `H×α L×γ H×η0 (L×λi H×ηi) L×1` within the bounds completes, and
not earlier, at the step `α + γ + η0 + 1 + Σ(λi + ηi)` after `t_rsp`, with the bits that the widths
give. -/
def Obligations.LineWithinTheBoundsDecodes : Prop :=
  ∀ (s : State) (alpha gamma eta0 : Nat) (widths : List (Nat × Nat)) (ws : List InputWord)
    (rest : List Stimulus) (f : Frame),
    atResponse s → headFits s.cfg alpha gamma eta0 → widths.length = 39 →
    widthsFit s.cfg widths →
    feeds s ws rest (expandRuns (waveform alpha gamma eta0 widths ++ [⟨.low, 1⟩])) →
    f = BitVec.ofNat 40 (bitsValue (waveformBits s.cfg eta0 widths)) →
    ws.length = alpha + gamma + eta0 + 1 + (widths.map fun p => p.1 + p.2).sum ∧
    (∀ k, k < ws.length → ∃ u, runSteps k s = .next u ∧ u.busy = true) ∧
    ∃ t, runSteps ws.length s = .next t ∧ t.st = .idle ∧ t.done_q = true ∧ t.bit_cnt = 40 ∧
      t.frame_q = f ∧ t.shreg = f ∧ t.outcome_q = (if ckValid f then .ok else .checksum) ∧
      t.phase_q = s.phase_q ∧ t.inputs = rest

/-- R126, its second table: the first bound that fails in time decides the phase and the bit count of
the timeout. -/
def Obligations.FirstBrokenBoundTimesOut : Prop :=
  ∀ (s : State) (alpha gamma eta0 : Nat) (widths : List (Nat × Nat)) (low : Nat)
    (ws : List InputWord) (rest : List Stimulus),
    atResponse s → headFits s.cfg alpha gamma eta0 → widths.length ≤ 38 →
    widthsFit s.cfg widths → 1 ≤ low → low ≤ s.cfg.toBitLow →
    (feeds s ws rest (expandRuns [⟨.high, s.cfg.toHsLow⟩]) →
      timesOutAfter ws.length s .hsLow 0) ∧
    (feeds s ws rest (expandRuns [⟨.high, alpha⟩, ⟨.low, s.cfg.toHsHigh + 1⟩]) →
      timesOutAfter ws.length s .hsHigh 0) ∧
    (feeds s ws rest (expandRuns (waveform alpha gamma (s.cfg.toBitHigh + 2) [])) →
      timesOutAfter ws.length s .bitHigh 0) ∧
    (feeds s ws rest
        (expandRuns (waveform alpha gamma eta0 widths ++ [⟨.low, s.cfg.toBitLow + 1⟩])) →
      timesOutAfter ws.length s .bitLow (widths.length + 1)) ∧
    (feeds s ws rest
        (expandRuns (waveform alpha gamma eta0 widths ++
          [⟨.low, low⟩, ⟨.high, s.cfg.toBitHigh + 1⟩])) →
      timesOutAfter ws.length s .bitHigh (widths.length + 1))

/-- The script's `RESP ACK(a, c) FRAME(b0,b1,b2,b3,b4)` (R77, R78) is read back: with the default
configuration, whatever the bytes and whatever the acknowledge widths within the bounds, the block
publishes exactly that frame at the first sample of the `L…` that ends the FRAME, and every later sample
of the response is low. -/
def Obligations.ScriptedFrameIsReadBack : Prop :=
  ∀ (s : State) (b0 b1 b2 b3 b4 : Byte) (f : Frame) (a c n : Nat) (x : Level) (r : Response)
    (ws : List InputWord) (rest : List Stimulus),
    s.cfg = Config.default → atResponse s → a ≤ 84 → 1 ≤ c → c ≤ 85 →
    f = frameOfBytes b0 b1 b2 b3 b4 → r = Response.ofItems x [.ack a c, .frame b0 b1 b2 b3 b4] →
    n = (expandRuns r.runs).length + 1 → feeds s ws rest (r.samples n) →
    (∀ j, n ≤ j → r.sample j = .low) ∧
    ∃ t, runSteps ws.length s = .next t ∧ t.st = .idle ∧ t.done_q = true ∧ t.frame_q = f ∧
      t.outcome_q = (if ckValid f then .ok else .checksum)

/-- Duration of a transaction without reset: from a READ in IDLE it ends, whatever the line does, at a
step within R129's upper bound, and it is busy until then.  From below it takes at least one tick for
each of its calls, and the whole timeout of a last call that timed out: R129's 82 for a complete frame.
That a timeout can end a transaction before R129's 82 is the model's reading where the rules differ
(assumption 14). -/
def Obligations.TransactionEndsWithinTheBound : Prop :=
  ∀ (s : State) (r : InputWord) (ws : List InputWord) (rest : List Stimulus),
    s.st = .idle → r.rst = false → r.start = true → (∀ w ∈ ws, w.rst = false) →
    s.inputs = scheduled (r :: ws) rest →
    ws.length = s.cfg.tStartLow + s.cfg.tStartHigh + s.cfg.toHsLow + s.cfg.toHsHigh +
      40 * (s.cfg.toBitLow + s.cfg.toBitHigh) →
    ∃ k t, k ≤ ws.length ∧ s.cfg.tStartLow + s.cfg.tStartHigh + 1 ≤ k ∧
      runSteps (k + 1) s = .next t ∧ t.st = .idle ∧ t.done_q = true ∧
      (t.outcome_q ≠ .timeout → s.cfg.tStartLow + s.cfg.tStartHigh + 82 ≤ k) ∧
      s.cfg.tStartLow + s.cfg.tStartHigh + fewestTicks t ≤ k ∧
      (∀ j, 1 ≤ j → j ≤ k → ∃ u, runSteps j s = .next u ∧ u.busy = true ∧ u.done_q = false)

/-- A sensor that never pulls the line low (scenario C, vectors W4 and W28): the transaction times out in
HS_LOW at exactly step `t_rsp + TO_HS_LOW` after the READ (R115, R125, R128), and not before.  With
`TO_HS_LOW` below 82 this is before R129's lower bound (assumption 14). -/
def Obligations.SilentSensorTimesOutAtTheStepOfR128 : Prop :=
  ∀ (s : State) (r : InputWord) (ws : List InputWord) (rest : List Stimulus),
    s.st = .idle → r.rst = false → r.start = true → (∀ w ∈ ws, w.rst = false) →
    (∀ w ∈ ws.drop (s.cfg.tStartLow + s.cfg.tStartHigh), w.line_in = .high) →
    s.inputs = scheduled (r :: ws) rest →
    ws.length = s.cfg.tStartLow + s.cfg.tStartHigh + s.cfg.toHsLow →
    (∀ j, 1 ≤ j → j ≤ ws.length → ∃ u, runSteps j s = .next u ∧ u.busy = true) ∧
    timesOutAfter (ws.length + 1) s .hsLow 0

/-- R168, R41: no state carries over.  Two idle blocks with the same configuration that accept the same
READ run alike for ever under the same inputs, whatever they kept from earlier transactions, and every
completion gives them the same outcome; a full frame is the same frame and a timeout the same phase. -/
def Obligations.NoStateCarriesOverToTheNextRead : Prop :=
  ∀ (s1 s2 : State) (r : InputWord) (n : Nat),
    s1.st = .idle → s2.st = .idle → s1.cfg = s2.cfg → s1.inputs = s2.inputs →
    s1.tick = s2.tick → s1.inputs.all Stimulus.isTick = true → s1.present = .tick r →
    r.rst = false → r.start = true →
    ∃ t1 t2, runSteps (n + 1) s1 = .next t1 ∧ runSteps (n + 1) s2 = .next t2 ∧
      sameTransaction t1 t2 ∧
      (t1.done_q = true → t1.outcome_q = t2.outcome_q ∧
        (t1.outcome_q = .timeout → t1.phase_q = t2.phase_q) ∧
        (t1.outcome_q ≠ .timeout → t1.frame_q = t2.frame_q))

/-! ## The host's side of the boundary -/

/-- R199: the host replaces its reading in the `done` tick of an OK and forwards every other outcome. -/
def Obligations.HostUpdatesItsCacheOnlyOnOk : Prop :=
  ∀ (s : State) (c : HostCache),
    (s.done_q = true → s.outcome_q = .ok →
      hostUpdate s.outputs c =
        ({ reading := { humidity := frameByte s.frame_q 0, temperature := frameByte s.frame_q 2 },
           everRead := true }, none)) ∧
    (s.done_q = true → s.outcome_q = .timeout →
      hostUpdate s.outputs c = (c, some (.timeout s.phase_q.code))) ∧
    (s.done_q = true → s.outcome_q = .checksum →
      hostUpdate s.outputs c = (c, some .checksum)) ∧
    (s.done_q = false → hostUpdate s.outputs c = (c, none))

/-- R198 with R196 and R208: in the tick right after a completion (`E + 1`) the block accepts a READ,
and a host that raises `start` there breaks the minimum spacing.  After `n` further ticks without
`start` (tick `E + 1 + n`) the block accepts it as well, and a host that has issued a READ before may
raise `start` exactly from tick `E + 2000000` on.  The host's log is the model's form of the duty
(assumption 19). -/
def Obligations.StartInTheDoneTickBreaksTheSpacing : Prop :=
  ∀ (h : HostLog) (s t : State) (w0 w : InputWord), s.present = .tick w0 → step s = .next t →
    t.done_q = true → w.rst = false → w.start = true →
    acceptsRead t w = true ∧ ¬(h.after s w0 t).allows t w ∧
    (∃ u, tickWith w t = .next u ∧ u.st = .startLow) ∧
    (∀ ws : List InputWord, h.hasRead = true → (∀ x ∈ ws, x.rst = false ∧ x.start = false) →
      ∃ u g, runLogged ws t (h.after s w0 t) = .next (u, g) ∧ acceptsRead u w = true ∧
        (g.allows u w ↔ 2000000 ≤ ws.length + 1) ∧
        ∃ v, tickWith w u = .next v ∧ v.st = .startLow)
end

