-- ==== Sys2Proof/Laws/Decode.lean ====
section
/-! SUPPORT. Lemmas about codes, the decoder and what a step fetches. -/

namespace Sys2Proof

@[simp] theorem Level.ofBool_isHigh (l : Level) : Level.ofBool l.isHigh = l := by
  cases l <;> rfl

@[simp] theorem Level.flip_flip (l : Level) : l.flip.flip = l := by
  cases l <;> rfl

@[simp] theorem StateCode.ofCode_code (c : StateCode) : StateCode.ofCode c.code = c := by
  cases c <;> rfl

theorem StateCode.code_ofCode : ∀ c : BitVec 3, (StateCode.ofCode c).code = c := by decide

@[simp] theorem InputWord.ofBits_toBits (w : InputWord) : InputWord.ofBits w.toBits = w := by
  rcases w with ⟨r, a, l⟩
  cases r <;> cases a <;> cases l <;> rfl

/-- Which of the decoder's branches a tick's word takes. -/
theorem decode_cmd6Word (st : StateCode) (w : InputWord) :
    decode (.cmd6 (cmd6Word st w)) =
      if w.rst then .reset
      else if w.start then decodeStart st w.line_in else decodeState st w.line_in := by
  rcases w with ⟨r, a, l⟩
  cases st <;> cases r <;> cases a <;> cases l <;> rfl

namespace Machine

@[simp] theorem present_cons (s : State) (x : Stimulus) (rest : List Stimulus)
    (h : s.inputs = x :: rest) : s.present = x := by
  simp [State.present, h]

/-- In a tick the step's word is the state code over the input word. -/
theorem fetchWord_tick {s : State} {w : InputWord} (h : s.present = .tick w) :
    s.fetchWord = .cmd6 (cmd6Word s.st w) := by
  simp [State.fetchWord, h]

/-- In a tick the sample is the input word's line level (R16). -/
theorem sample_tick {s : State} {w : InputWord} (h : s.present = .tick w) :
    s.sample = w.line_in := by
  unfold State.present at h
  unfold State.sample
  split at h
  · rename_i e; cases h; simp [e, firstTickWord]
  · rename_i e; subst h; simp [e, firstTickWord]

end Machine
end Sys2Proof
end

