-- ==== Sys2Proof/Laws/State.lean ====
section
/-! SUPPORT. One lemma per field for each update of the state that the shared operations make, so that
no later proof unfolds a record update. -/

namespace Sys2Proof.Machine

/-! ## `stay` (R29) -/

@[simp] theorem stay_st (s : State) : (stay s).st = s.st := rfl
@[simp] theorem stay_dly_cnt (s : State) : (stay s).dly_cnt = s.dly_cnt := rfl
@[simp] theorem stay_pt_cnt (s : State) : (stay s).pt_cnt = s.pt_cnt := rfl
@[simp] theorem stay_bit_cnt (s : State) : (stay s).bit_cnt = s.bit_cnt := rfl
@[simp] theorem stay_shreg (s : State) : (stay s).shreg = s.shreg := rfl
@[simp] theorem stay_frame_q (s : State) : (stay s).frame_q = s.frame_q := rfl
@[simp] theorem stay_outcome_q (s : State) : (stay s).outcome_q = s.outcome_q := rfl
@[simp] theorem stay_phase_q (s : State) : (stay s).phase_q = s.phase_q := rfl
@[simp] theorem stay_done_q (s : State) : (stay s).done_q = false := rfl
@[simp] theorem stay_cfg (s : State) : (stay s).cfg = s.cfg := rfl
@[simp] theorem stay_inputs (s : State) : (stay s).inputs = s.inputs := rfl
@[simp] theorem stay_tick (s : State) : (stay s).tick = s.tick := rfl
@[simp] theorem stay_unit_result (s : State) : (stay s).unit_result = s.unit_result := rfl

/-! ## `goTo` (R29) -/

@[simp] theorem goTo_st (c : StateCode) (s : State) : (goTo c s).st = c := rfl
@[simp] theorem goTo_dly_cnt (c : StateCode) (s : State) : (goTo c s).dly_cnt = s.dly_cnt := rfl
@[simp] theorem goTo_pt_cnt (c : StateCode) (s : State) : (goTo c s).pt_cnt = s.pt_cnt := rfl
@[simp] theorem goTo_bit_cnt (c : StateCode) (s : State) : (goTo c s).bit_cnt = s.bit_cnt := rfl
@[simp] theorem goTo_shreg (c : StateCode) (s : State) : (goTo c s).shreg = s.shreg := rfl
@[simp] theorem goTo_frame_q (c : StateCode) (s : State) : (goTo c s).frame_q = s.frame_q := rfl
@[simp] theorem goTo_outcome_q (c : StateCode) (s : State) : (goTo c s).outcome_q = s.outcome_q := rfl
@[simp] theorem goTo_phase_q (c : StateCode) (s : State) : (goTo c s).phase_q = s.phase_q := rfl
@[simp] theorem goTo_done_q (c : StateCode) (s : State) : (goTo c s).done_q = false := rfl
@[simp] theorem goTo_cfg (c : StateCode) (s : State) : (goTo c s).cfg = s.cfg := rfl
@[simp] theorem goTo_inputs (c : StateCode) (s : State) : (goTo c s).inputs = s.inputs := rfl
@[simp] theorem goTo_tick (c : StateCode) (s : State) : (goTo c s).tick = s.tick := rfl
@[simp] theorem goTo_unit_result (c : StateCode) (s : State) : (goTo c s).unit_result = s.unit_result := rfl

/-! ## `raiseTimeout` (R164) -/

@[simp] theorem raiseTimeout_st (p : Phase) (s : State) : (raiseTimeout p s).st = .idle := rfl
@[simp] theorem raiseTimeout_dly_cnt (p : Phase) (s : State) : (raiseTimeout p s).dly_cnt = s.dly_cnt := rfl
@[simp] theorem raiseTimeout_pt_cnt (p : Phase) (s : State) : (raiseTimeout p s).pt_cnt = 0 := rfl
@[simp] theorem raiseTimeout_bit_cnt (p : Phase) (s : State) : (raiseTimeout p s).bit_cnt = s.bit_cnt := rfl
@[simp] theorem raiseTimeout_shreg (p : Phase) (s : State) : (raiseTimeout p s).shreg = s.shreg := rfl
@[simp] theorem raiseTimeout_frame_q (p : Phase) (s : State) : (raiseTimeout p s).frame_q = s.frame_q := rfl
@[simp] theorem raiseTimeout_outcome_q (p : Phase) (s : State) : (raiseTimeout p s).outcome_q = .timeout := rfl
@[simp] theorem raiseTimeout_phase_q (p : Phase) (s : State) : (raiseTimeout p s).phase_q = p := rfl
@[simp] theorem raiseTimeout_done_q (p : Phase) (s : State) : (raiseTimeout p s).done_q = true := rfl
@[simp] theorem raiseTimeout_cfg (p : Phase) (s : State) : (raiseTimeout p s).cfg = s.cfg := rfl
@[simp] theorem raiseTimeout_inputs (p : Phase) (s : State) : (raiseTimeout p s).inputs = s.inputs := rfl
@[simp] theorem raiseTimeout_tick (p : Phase) (s : State) : (raiseTimeout p s).tick = s.tick := rfl
@[simp] theorem raiseTimeout_unit_result (p : Phase) (s : State) : (raiseTimeout p s).unit_result = s.unit_result := rfl

/-! ## `finishFrame` (R121) -/

@[simp] theorem finishFrame_st (f : Frame) (s : State) : (finishFrame f s).st = .idle := rfl
@[simp] theorem finishFrame_dly_cnt (f : Frame) (s : State) : (finishFrame f s).dly_cnt = s.dly_cnt := rfl
@[simp] theorem finishFrame_pt_cnt (f : Frame) (s : State) : (finishFrame f s).pt_cnt = 0 := rfl
@[simp] theorem finishFrame_bit_cnt (f : Frame) (s : State) : (finishFrame f s).bit_cnt = s.bit_cnt := rfl
@[simp] theorem finishFrame_shreg (f : Frame) (s : State) : (finishFrame f s).shreg = s.shreg := rfl
@[simp] theorem finishFrame_frame_q (f : Frame) (s : State) : (finishFrame f s).frame_q = f := rfl
@[simp] theorem finishFrame_outcome_q (f : Frame) (s : State) : (finishFrame f s).outcome_q = if ckValid f then .ok else .checksum := rfl
@[simp] theorem finishFrame_phase_q (f : Frame) (s : State) : (finishFrame f s).phase_q = s.phase_q := rfl
@[simp] theorem finishFrame_done_q (f : Frame) (s : State) : (finishFrame f s).done_q = true := rfl
@[simp] theorem finishFrame_cfg (f : Frame) (s : State) : (finishFrame f s).cfg = s.cfg := rfl
@[simp] theorem finishFrame_inputs (f : Frame) (s : State) : (finishFrame f s).inputs = s.inputs := rfl
@[simp] theorem finishFrame_tick (f : Frame) (s : State) : (finishFrame f s).tick = s.tick := rfl
@[simp] theorem finishFrame_unit_result (f : Frame) (s : State) : (finishFrame f s).unit_result = s.unit_result := rfl

/-! ## `measure` (R91) -/

@[simp] theorem measure_st (l : Level) (t : BitVec 8) (x : Level) (s : State) : ((measure l t x s).2).st = s.st := rfl
@[simp] theorem measure_dly_cnt (l : Level) (t : BitVec 8) (x : Level) (s : State) : ((measure l t x s).2).dly_cnt = s.dly_cnt := rfl
@[simp] theorem measure_pt_cnt (l : Level) (t : BitVec 8) (x : Level) (s : State) : ((measure l t x s).2).pt_cnt = (ptEval l t s.pt_cnt x).2 := rfl
@[simp] theorem measure_bit_cnt (l : Level) (t : BitVec 8) (x : Level) (s : State) : ((measure l t x s).2).bit_cnt = s.bit_cnt := rfl
@[simp] theorem measure_shreg (l : Level) (t : BitVec 8) (x : Level) (s : State) : ((measure l t x s).2).shreg = s.shreg := rfl
@[simp] theorem measure_frame_q (l : Level) (t : BitVec 8) (x : Level) (s : State) : ((measure l t x s).2).frame_q = s.frame_q := rfl
@[simp] theorem measure_outcome_q (l : Level) (t : BitVec 8) (x : Level) (s : State) : ((measure l t x s).2).outcome_q = s.outcome_q := rfl
@[simp] theorem measure_phase_q (l : Level) (t : BitVec 8) (x : Level) (s : State) : ((measure l t x s).2).phase_q = s.phase_q := rfl
@[simp] theorem measure_done_q (l : Level) (t : BitVec 8) (x : Level) (s : State) : ((measure l t x s).2).done_q = s.done_q := rfl
@[simp] theorem measure_cfg (l : Level) (t : BitVec 8) (x : Level) (s : State) : ((measure l t x s).2).cfg = s.cfg := rfl
@[simp] theorem measure_inputs (l : Level) (t : BitVec 8) (x : Level) (s : State) : ((measure l t x s).2).inputs = s.inputs := rfl
@[simp] theorem measure_tick (l : Level) (t : BitVec 8) (x : Level) (s : State) : ((measure l t x s).2).tick = s.tick := rfl
@[simp] theorem measure_unit_result (l : Level) (t : BitVec 8) (x : Level) (s : State) : ((measure l t x s).2).unit_result = s.unit_result := rfl

/-! ## `measurePhase` (R71) -/

@[simp] theorem measurePhase_st (p : Phase) (x : Level) (s : State) : ((measurePhase p x s).2).st = s.st := rfl
@[simp] theorem measurePhase_dly_cnt (p : Phase) (x : Level) (s : State) : ((measurePhase p x s).2).dly_cnt = s.dly_cnt := rfl
@[simp] theorem measurePhase_pt_cnt (p : Phase) (x : Level) (s : State) : ((measurePhase p x s).2).pt_cnt = (ptEval p.target (p.timeout s.cfg) s.pt_cnt x).2 := rfl
@[simp] theorem measurePhase_bit_cnt (p : Phase) (x : Level) (s : State) : ((measurePhase p x s).2).bit_cnt = s.bit_cnt := rfl
@[simp] theorem measurePhase_shreg (p : Phase) (x : Level) (s : State) : ((measurePhase p x s).2).shreg = s.shreg := rfl
@[simp] theorem measurePhase_frame_q (p : Phase) (x : Level) (s : State) : ((measurePhase p x s).2).frame_q = s.frame_q := rfl
@[simp] theorem measurePhase_outcome_q (p : Phase) (x : Level) (s : State) : ((measurePhase p x s).2).outcome_q = s.outcome_q := rfl
@[simp] theorem measurePhase_phase_q (p : Phase) (x : Level) (s : State) : ((measurePhase p x s).2).phase_q = s.phase_q := rfl
@[simp] theorem measurePhase_done_q (p : Phase) (x : Level) (s : State) : ((measurePhase p x s).2).done_q = s.done_q := rfl
@[simp] theorem measurePhase_cfg (p : Phase) (x : Level) (s : State) : ((measurePhase p x s).2).cfg = s.cfg := rfl
@[simp] theorem measurePhase_inputs (p : Phase) (x : Level) (s : State) : ((measurePhase p x s).2).inputs = s.inputs := rfl
@[simp] theorem measurePhase_tick (p : Phase) (x : Level) (s : State) : ((measurePhase p x s).2).tick = s.tick := rfl
@[simp] theorem measurePhase_unit_result (p : Phase) (x : Level) (s : State) : ((measurePhase p x s).2).unit_result = s.unit_result := rfl

/-! ## `State.advance`: only the schedule and the tick number change (R11) -/

@[simp] theorem advance_st (s : State) : s.advance.st = s.st := by
  unfold State.advance; split <;> rfl
@[simp] theorem advance_dly_cnt (s : State) : s.advance.dly_cnt = s.dly_cnt := by
  unfold State.advance; split <;> rfl
@[simp] theorem advance_pt_cnt (s : State) : s.advance.pt_cnt = s.pt_cnt := by
  unfold State.advance; split <;> rfl
@[simp] theorem advance_bit_cnt (s : State) : s.advance.bit_cnt = s.bit_cnt := by
  unfold State.advance; split <;> rfl
@[simp] theorem advance_shreg (s : State) : s.advance.shreg = s.shreg := by
  unfold State.advance; split <;> rfl
@[simp] theorem advance_frame_q (s : State) : s.advance.frame_q = s.frame_q := by
  unfold State.advance; split <;> rfl
@[simp] theorem advance_outcome_q (s : State) : s.advance.outcome_q = s.outcome_q := by
  unfold State.advance; split <;> rfl
@[simp] theorem advance_phase_q (s : State) : s.advance.phase_q = s.phase_q := by
  unfold State.advance; split <;> rfl
@[simp] theorem advance_done_q (s : State) : s.advance.done_q = s.done_q := by
  unfold State.advance; split <;> rfl
@[simp] theorem advance_cfg (s : State) : s.advance.cfg = s.cfg := by
  unfold State.advance; split <;> rfl
@[simp] theorem advance_unit_result (s : State) : s.advance.unit_result = s.unit_result := by
  unfold State.advance; split <;> rfl
@[simp] theorem advance_inputs (s : State) : s.advance.inputs = s.inputs.tail := by
  unfold State.advance; split <;> simp [*]

theorem advance_tick_of_tick {s : State} {w : InputWord} (h : s.present = .tick w) :
    s.advance.tick = s.tick + 1 := by
  unfold State.present at h
  unfold State.advance
  split at h <;> simp_all

/-- Using up a scheduled tick. -/
theorem advance_scheduled (s : State) (w : InputWord) (rest : List Stimulus)
    (h : s.inputs = .tick w :: rest) : s.advance = { s with inputs := rest, tick := s.tick + 1 } := by
  simp [State.advance, h]

end Sys2Proof.Machine
end

