-- ==== Sys2Proof/Laws/Ops.lean ====
section
/-! SUPPORT. One lemma for each shared operation that says once what it can do; the meanings' proofs
cite these instead of unfolding the operations. -/

namespace Sys2Proof.Machine

theorem level_ne_iff (a b : Level) : a ≠ b ↔ a = b.flip := by
  cases a <;> cases b <;> decide

/-- R72: in a well-formed configuration the PT word carries the timeout whole. -/
theorem timeoutTicks_bounds (cfg : Config) (p : Phase) :
    1 ≤ p.timeoutTicks cfg ∧ p.timeoutTicks cfg ≤ 255 := by
  have h := cfg.ok
  unfold Params.check at h
  repeat' split at h
  all_goals first
    | (cases p <;> simp only [Phase.timeoutTicks] <;> omega)
    | (exact absurd h (by simp))

@[simp] theorem timeout_toNat (cfg : Config) (p : Phase) :
    (p.timeout cfg).toNat = p.timeoutTicks cfg := by
  have h := timeoutTicks_bounds cfg p
  simp only [Phase.timeout, BitVec.toNat_ofNat]
  omega

/-- The bounds of R8 on the start sequence. -/
theorem start_bounds (cfg : Config) :
    18000 ≤ cfg.tStartLow ∧ cfg.tStartLow ≤ 65535 ∧ 20 ≤ cfg.tStartHigh ∧ cfg.tStartHigh ≤ 40 := by
  have h := cfg.ok
  unfold Params.check at h
  repeat' split at h
  all_goals first
    | omega
    | (exact absurd h (by simp))

/-- What one evaluation of the pulse timer can answer (R91). -/
theorem ptEval_cases (l : Level) (t c : BitVec 8) (x : Level) :
    (x ≠ l ∧ ptEval l t c x = (.done (c.toNat + 1), 0)) ∨
    (x = l ∧ t.toNat ≤ c.toNat + 1 ∧ ptEval l t c x = (.timeout, 0)) ∨
    (x = l ∧ c.toNat + 1 < t.toNat ∧ ptEval l t c x = (.busy, c + 1)) := by
  unfold ptEval
  by_cases h : x = l
  · by_cases h2 : t.toNat ≤ c.toNat + 1
    · exact .inr (.inl ⟨h, h2, by simp [h, h2]⟩)
    · exact .inr (.inr ⟨h, by omega, by simp [h, h2]⟩)
  · exact .inl ⟨h, by rw [if_pos h]⟩

/-- What a pulse-timer state sees of its evaluation (R71, R91). -/
theorem measurePhase_cases (p : Phase) (x : Level) (s : State) :
    (x ≠ p.target ∧ measurePhase p x s = (.done (s.pt_cnt.toNat + 1), { s with pt_cnt := 0 })) ∨
    (x = p.target ∧ p.timeoutTicks s.cfg ≤ s.pt_cnt.toNat + 1 ∧
      measurePhase p x s = (.timeout, { s with pt_cnt := 0 })) ∨
    (x = p.target ∧ s.pt_cnt.toNat + 1 < p.timeoutTicks s.cfg ∧
      measurePhase p x s = (.busy, { s with pt_cnt := s.pt_cnt + 1 })) := by
  rcases ptEval_cases p.target (p.timeout s.cfg) s.pt_cnt x with ⟨h, e⟩ | ⟨h, b, e⟩ | ⟨h, b, e⟩
  · exact .inl ⟨h, by simp only [measurePhase, measure, e]⟩
  · exact .inr (.inl ⟨h, by simpa using b, by simp only [measurePhase, measure, e]⟩)
  · exact .inr (.inr ⟨h, by simpa using b, by simp only [measurePhase, measure, e]⟩)

/-- R120 in numbers: the register doubles and takes the bit, in 40 bits. -/
theorem shiftIn_toNat (f : Frame) (b : Bool) :
    (shiftIn f b).toNat = (2 * f.toNat + b.toNat) % 2 ^ 40 := by
  have hf := f.isLt
  unfold shiftIn
  rw [BitVec.toNat_append, BitVec.extractLsb'_toNat, BitVec.toNat_ofBool, Nat.shiftRight_zero,
    ← Nat.shiftLeft_add_eq_or_of_lt (by cases b <;> decide), Nat.shiftLeft_eq]
  cases b <;> simp only [Bool.toNat_true, Bool.toNat_false] <;> omega

/-- A bit of the register after one more was shifted in (R120). -/
theorem shiftIn_getLsbD (f : Frame) (b : Bool) (k : Nat) :
    (shiftIn f b).getLsbD k = if k = 0 then b else (decide (k < 40) && f.getLsbD (k - 1)) := by
  unfold shiftIn
  rw [BitVec.getLsbD_append]
  cases k with
  | zero => simp
  | succ k =>
    have : decide (k + 1 < 40) = decide (k < 39) := decide_eq_decide.mpr (by omega)
    simp [BitVec.getLsbD_extractLsb', this]

/-- R150 in numbers, on the four payload bytes. -/
theorem ckSum_toNat (f : Frame) :
    (ckSum f).toNat = ((frameByte f 0).toNat + (frameByte f 1).toNat + (frameByte f 2).toNat +
      (frameByte f 3).toNat) % 256 := by
  simp only [ckSum, BitVec.toNat_add]
  omega

/-- The two ways a high phase ends (R118, R121). -/
theorem takeBit_cases (e : Nat) (s : State) :
    (s.bit_cnt = 39#6 ∧ takeBit e s = finishFrame (shiftIn s.shreg (classify s.cfg e))
      { s with shreg := shiftIn s.shreg (classify s.cfg e), bit_cnt := 40 }) ∨
    (s.bit_cnt ≠ 39#6 ∧ takeBit e s = goTo .bitLow
      { s with shreg := shiftIn s.shreg (classify s.cfg e), bit_cnt := s.bit_cnt + 1 }) := by
  by_cases h : s.bit_cnt = 39#6
  · exact .inl ⟨h, by simp [takeBit, h]⟩
  · refine .inr ⟨h, ?_⟩
    have h2 : ¬ s.bit_cnt + 1 = 40#6 := fun h3 => h (by
      have := congrArg (· - 1#6) h3
      simpa using this)
    simp only [takeBit, if_neg h2]

end Sys2Proof.Machine
end

