-- ==== Sys2Proof/Laws/PerInstr.lean ====
section
/-! SUPPORT. A law of every instruction as syntax, one lemma per constructor: the word that the encoder
writes is one that opcode_table.json's own row for the instruction claims. -/

namespace Sys2Proof.Laws.EncodesItsRow

/-- The encoder's word has the row's format, and for a CMD6 row the first row of the table that matches
it is the instruction's own (R79). -/
def Statement (i : Instr) : Prop :=
  match encode i with
  | .cmd6 w => (cmd6Table.find? fun r => r.hits w).map Cmd6Row.mnemonic = some i.mnemonic
  | .pt9 _ => i.mnemonic = "PT.MEASURE"
  | .ck40 _ => i.mnemonic = "CK.VALIDATE"

theorem reset : Statement .reset := rfl

theorem read : Statement .read := rfl

theorem readBusy (st : BusyState) (line : Level) : Statement (.readBusy st line) := by
  cases st <;> cases line <;> rfl

theorem nop : Statement .nop := rfl

theorem stateStartLow : Statement .stateStartLow := rfl

theorem stateStartHigh : Statement .stateStartHigh := rfl

theorem stateHsLow (line : Level) : Statement (.stateHsLow line) := by cases line <;> rfl

theorem stateHsHigh (line : Level) : Statement (.stateHsHigh line) := by cases line <;> rfl

theorem stateBitLow (line : Level) : Statement (.stateBitLow line) := by cases line <;> rfl

theorem stateBitHigh (line : Level) : Statement (.stateBitHigh line) := by cases line <;> rfl

theorem stateUnused : Statement .stateUnused := rfl

theorem ptMeasure (target : Level) (timeout : BitVec 8) : Statement (.ptMeasure target timeout) := rfl

theorem ckValidate (frame : Frame) : Statement (.ckValidate frame) := rfl

end Sys2Proof.Laws.EncodesItsRow
end

