-- ==== Sys2Proof/Laws/Script.lean ====
section
/-! SUPPORT. What the script's response gives at each sample (R77, R78), said once. -/

namespace Sys2Proof.Machine

@[simp] theorem expandRuns_nil : expandRuns [] = [] := rfl

@[simp] theorem expandRuns_cons (r : LevelRun) (rs : List LevelRun) :
    expandRuns (r :: rs) = List.replicate r.length r.level ++ expandRuns rs := rfl

@[simp] theorem expandRuns_append (as bs : List LevelRun) :
    expandRuns (as ++ bs) = expandRuns as ++ expandRuns bs := by
  simp [expandRuns]

/-- An item that holds a level ends the list. -/
theorem Response.ofItems_holds (x l : Level) (i : RespItem) (rest : List RespItem)
    (h : i.holds = some l) : Response.ofItems x (i :: rest) = { runs := i.runs, final := l } := by
  simp [Response.ofItems, h]

/-- An item that holds none puts its runs before the rest of the list. -/
theorem Response.ofItems_runs (x : Level) (i : RespItem) (rest : List RespItem)
    (h : i.holds = none) :
    Response.ofItems x (i :: rest) =
      { runs := i.runs ++ (Response.ofItems x rest).runs,
        final := (Response.ofItems x rest).final } := by
  simp [Response.ofItems, h]

/-- After its runs a response stays at its final level. -/
theorem Response.sample_after (r : Response) (j : Nat) (h : (expandRuns r.runs).length < j) :
    r.sample j = r.final := by
  unfold Response.sample
  exact List.getD_eq_default _ _ (by omega)

/-- The first samples are the runs, and one more is the final level. -/
theorem Response.samples_runs (r : Response) :
    r.samples ((expandRuns r.runs).length + 1) = expandRuns r.runs ++ [r.final] := by
  unfold Response.samples
  rw [List.range_succ, List.map_append]
  congr 1
  · refine List.ext_getElem (by simp) fun n h1 h2 => ?_
    simp [Response.sample, List.getD_eq_getElem?_getD, h2]
  · simp [Response.sample_after]

end Sys2Proof.Machine
end

