-- ==== Sys2Proof/Laws/Step.lean ====
section
/-! SUPPORT. What a meaning, a step and a run of steps can do, said once. -/

namespace Sys2Proof.Machine

/-- A step of an instruction that goes on. -/
theorem step_of_exec {s t : State} {i : Instr} (hd : decode s.fetchWord = i)
    (he : exec i s = .next t) : step s = .next t.advance := by
  simp [step, hd, he]

/-- A step is the decoded instruction's meaning, with the stimulus used up after it. -/
theorem step_eq_advanced (s : State) : step s = advanced (exec (decode s.fetchWord) s) := rfl

/-- A tick runs the command that R67 gives it. -/
theorem step_tick {s : State} {w : InputWord} (h : s.present = .tick w) :
    step s = advanced (exec (if w.rst then .reset
      else if w.start then decodeStart s.st w.line_in else decodeState s.st w.line_in) s) := by
  rw [step_eq_advanced, fetchWord_tick h, decode_cmd6Word]

/-- `start = 1` outside IDLE runs the state operation (R111). -/
theorem exec_decodeStart (s : State) (line : Level) (h : s.st ≠ .idle) :
    exec (decodeStart s.st line) s = exec (decodeState s.st line) s := by
  cases hs : s.st <;> first | exact absurd hs h | rfl

/-- No meaning writes the configuration, the schedule or the tick number. -/
theorem exec_keeps_model_fields {i : Instr} {s t : State} (h : exec i s = .next t) :
    t.cfg = s.cfg ∧ t.inputs = s.inputs ∧ t.tick = s.tick := by
  have pulse : ∀ (p : Phase) (line : Level) (c : StateCode),
      (match measurePhase p line s with
        | (.busy, t) => Host.Outcome.next (φ := Fault) (ρ := Refusal) (stay t)
        | (.done _, t) => .next (goTo c t)
        | (.timeout, t) => .next (raiseTimeout p t)) = .next t →
      t.cfg = s.cfg ∧ t.inputs = s.inputs ∧ t.tick = s.tick := by
    intro p line c h
    rcases measurePhase_cases p line s with ⟨-, e⟩ | ⟨-, -, e⟩ | ⟨-, -, e⟩ <;>
      (rw [e] at h; cases h; exact ⟨rfl, rfl, rfl⟩)
  have bitHigh : ∀ line, execStateBitHigh line s = .next t →
      t.cfg = s.cfg ∧ t.inputs = s.inputs ∧ t.tick = s.tick := by
    intro line h
    unfold execStateBitHigh at h
    rcases measurePhase_cases .bitHigh line s with ⟨-, e⟩ | ⟨-, -, e⟩ | ⟨-, -, e⟩
    · rw [e] at h
      cases h
      rcases takeBit_cases (s.pt_cnt.toNat + 1) { s with pt_cnt := 0 } with ⟨-, e⟩ | ⟨-, e⟩ <;>
        (rw [e]; exact ⟨rfl, rfl, rfl⟩)
    all_goals (rw [e] at h; cases h; exact ⟨rfl, rfl, rfl⟩)
  have delay : ∀ line : Level, execStateStartLow s = .next t ∨ execStateStartHigh s = .next t →
      t.cfg = s.cfg ∧ t.inputs = s.inputs ∧ t.tick = s.tick := by
    intro _ h
    rcases h with h | h
    · unfold execStateStartLow at h
      split at h <;> (cases h; exact ⟨rfl, rfl, rfl⟩)
    · unfold execStateStartHigh at h
      split at h <;> (cases h; exact ⟨rfl, rfl, rfl⟩)
  cases i with
  | reset => cases h; exact ⟨rfl, rfl, rfl⟩
  | read => cases h; exact ⟨rfl, rfl, rfl⟩
  | readBusy b line =>
    cases b with
    | startLow => exact delay line (.inl h)
    | startHigh => exact delay line (.inr h)
    | hsLow => exact pulse .hsLow line .hsHigh h
    | hsHigh => exact pulse .hsHigh line .bitLow h
    | bitLow => exact pulse .bitLow line .bitHigh h
    | bitHigh => exact bitHigh line h
    | unused => cases h; exact ⟨rfl, rfl, rfl⟩
  | nop => cases h; exact ⟨rfl, rfl, rfl⟩
  | stateStartLow => exact delay .low (.inl h)
  | stateStartHigh => exact delay .low (.inr h)
  | stateHsLow line => exact pulse .hsLow line .hsHigh h
  | stateHsHigh line => exact pulse .hsHigh line .bitLow h
  | stateBitLow line => exact pulse .bitLow line .bitHigh h
  | stateBitHigh line => exact bitHigh line h
  | stateUnused => cases h; exact ⟨rfl, rfl, rfl⟩
  | ptMeasure l t' => cases h; exact ⟨rfl, rfl, rfl⟩
  | ckValidate f => cases h; exact ⟨rfl, rfl, rfl⟩

/-! ## What a tick can do -/

/-- With only ticks scheduled, a tick is presented. -/
theorem present_tick_of_ticksOnly {s : State} (h : s.inputs.all Stimulus.isTick = true) :
    ∃ w, s.present = .tick w := by
  unfold State.present
  split
  · exact ⟨_, rfl⟩
  · rename_i x r e
    rw [e] at h
    cases x with
    | tick w => exact ⟨w, rfl⟩
    | ptWord w => simp [Stimulus.isTick] at h
    | ckWord w => simp [Stimulus.isTick] at h

/-- A tick with `rst = 1` (R190). -/
theorem step_reset {s : State} {w : InputWord} (hp : s.present = .tick w) (hr : w.rst = true) :
    step s = .next
      ({ State.reset with cfg := s.cfg, inputs := s.inputs, tick := s.tick } : State).advance := by
  rw [step_tick hp, hr]
  rfl

/-- Everything a tick without reset can do to a state, in any state at all. -/
inductive TickCase (s : State) (w : InputWord) : State → Prop where
  | read : s.st = .idle → w.start = true →
      TickCase s w { s with st := .startLow, dly_cnt := 0, pt_cnt := 0, bit_cnt := 0, shreg := 0,
                            done_q := false }
  | nop : s.st = .idle → w.start = false → TickCase s w { s with done_q := false }
  | startLowEnd : s.st = .startLow → s.dly_cnt.toNat = s.cfg.tStartLow - 1 →
      TickCase s w { s with st := .startHigh, dly_cnt := 0, done_q := false }
  | startHighEnd : s.st = .startHigh → s.dly_cnt.toNat = s.cfg.tStartHigh - 1 →
      TickCase s w { s with st := .hsLow, dly_cnt := 0, pt_cnt := 0, done_q := false }
  | startLowCount : s.st = .startLow → s.dly_cnt.toNat ≠ s.cfg.tStartLow - 1 →
      TickCase s w { s with dly_cnt := s.dly_cnt + 1, done_q := false }
  | startHighCount : s.st = .startHigh → s.dly_cnt.toNat ≠ s.cfg.tStartHigh - 1 →
      TickCase s w { s with dly_cnt := s.dly_cnt + 1, done_q := false }
  | busy (p : Phase) : s.st = p.state → w.line_in = p.target →
      s.pt_cnt.toNat + 1 < p.timeoutTicks s.cfg →
      TickCase s w { s with pt_cnt := s.pt_cnt + 1, done_q := false }
  | timeout (p : Phase) : s.st = p.state → w.line_in = p.target →
      p.timeoutTicks s.cfg ≤ s.pt_cnt.toNat + 1 →
      TickCase s w (raiseTimeout p { s with pt_cnt := 0 })
  | hsLowDone : s.st = .hsLow → w.line_in = .low →
      TickCase s w { s with st := .hsHigh, pt_cnt := 0, done_q := false }
  | hsHighDone : s.st = .hsHigh → w.line_in = .high →
      TickCase s w { s with st := .bitLow, pt_cnt := 0, done_q := false }
  | bitLowDone : s.st = .bitLow → w.line_in = .high →
      TickCase s w { s with st := .bitHigh, pt_cnt := 0, done_q := false }
  | bit (f : Frame) : s.st = .bitHigh → w.line_in = .low → s.bit_cnt ≠ 39#6 →
      f = shiftIn s.shreg (classify s.cfg (s.pt_cnt.toNat + 1)) →
      TickCase s w { s with st := .bitLow, pt_cnt := 0, done_q := false, shreg := f,
                            bit_cnt := s.bit_cnt + 1 }
  | frame (f : Frame) : s.st = .bitHigh → w.line_in = .low → s.bit_cnt = 39#6 →
      f = shiftIn s.shreg (classify s.cfg (s.pt_cnt.toNat + 1)) →
      TickCase s w (finishFrame f { s with pt_cnt := 0, shreg := f, bit_cnt := 40 })
  | unused : s.st = .unused →
      TickCase s w { s with st := .idle, dly_cnt := 0, pt_cnt := 0, done_q := false }

/-- The step of a tick without reset is one of `TickCase`'s, with the stimulus used up. -/
theorem tick_cases {s t : State} {w : InputWord} (hp : s.present = .tick w) (hr : w.rst = false)
    (h : step s = .next t) : ∃ u, t = u.advance ∧ TickCase s w u := by
  have hx : ∃ u, t = u.advance ∧
      exec (if w.start then decodeStart s.st w.line_in else decodeState s.st w.line_in) s =
        .next u := by
    rw [step_tick hp, hr] at h
    simp only [Bool.false_eq_true, if_false] at h
    cases he : exec (if w.start then decodeStart s.st w.line_in
      else decodeState s.st w.line_in) s with
    | next u => rw [he] at h; cases h; exact ⟨u, rfl, rfl⟩
    | fault f => rw [he] at h; cases h
    | refused r => rw [he] at h; cases h
  obtain ⟨u, rfl, hu⟩ := hx
  refine ⟨u, rfl, ?_⟩
  by_cases hi : s.st = .idle
  · rw [hi] at hu
    cases hst : w.start <;> rw [hst] at hu <;> cases hu
    · exact .nop hi hst
    · exact .read hi hst
  have hu : exec (decodeState s.st w.line_in) s = .next u := by
    split at hu
    · rwa [exec_decodeStart _ _ hi] at hu
    · exact hu
  have flip : ∀ a b : Level, a ≠ b → a = b.flip := fun a b => (level_ne_iff a b).1
  cases hst : s.st <;> rw [hst] at hu
  case idle => exact absurd hst hi
  case startLow =>
    change execStateStartLow s = _ at hu
    unfold execStateStartLow at hu
    split at hu <;> cases hu
    · exact .startLowEnd hst ‹_›
    · exact .startLowCount hst ‹_›
  case startHigh =>
    change execStateStartHigh s = _ at hu
    unfold execStateStartHigh at hu
    split at hu <;> cases hu
    · exact .startHighEnd hst ‹_›
    · exact .startHighCount hst ‹_›
  case hsLow =>
    change execStateHsLow _ s = _ at hu
    unfold execStateHsLow at hu
    rcases measurePhase_cases .hsLow w.line_in s with ⟨a, e⟩ | ⟨a, b, e⟩ | ⟨a, b, e⟩ <;>
      rw [e] at hu <;> cases hu
    · exact .hsLowDone hst (flip _ _ a)
    · exact .timeout .hsLow hst a b
    · exact .busy .hsLow hst a b
  case hsHigh =>
    change execStateHsHigh _ s = _ at hu
    unfold execStateHsHigh at hu
    rcases measurePhase_cases .hsHigh w.line_in s with ⟨a, e⟩ | ⟨a, b, e⟩ | ⟨a, b, e⟩ <;>
      rw [e] at hu <;> cases hu
    · exact .hsHighDone hst (flip _ _ a)
    · exact .timeout .hsHigh hst a b
    · exact .busy .hsHigh hst a b
  case bitLow =>
    change execStateBitLow _ s = _ at hu
    unfold execStateBitLow at hu
    rcases measurePhase_cases .bitLow w.line_in s with ⟨a, e⟩ | ⟨a, b, e⟩ | ⟨a, b, e⟩ <;>
      rw [e] at hu <;> cases hu
    · exact .bitLowDone hst (flip _ _ a)
    · exact .timeout .bitLow hst a b
    · exact .busy .bitLow hst a b
  case bitHigh =>
    change execStateBitHigh _ s = _ at hu
    unfold execStateBitHigh at hu
    rcases measurePhase_cases .bitHigh w.line_in s with ⟨a, e⟩ | ⟨a, b, e⟩ | ⟨a, b, e⟩ <;>
      rw [e] at hu <;> cases hu
    · rcases takeBit_cases (s.pt_cnt.toNat + 1) { s with pt_cnt := 0 } with ⟨c, e⟩ | ⟨c, e⟩ <;>
        rw [e]
      · exact .frame _ hst (flip _ _ a) c rfl
      · exact .bit _ hst (flip _ _ a) c rfl
    · exact .timeout .bitHigh hst a b
    · exact .busy .bitHigh hst a b
  case unused =>
    cases hu
    exact .unused hst

/-! ## Ticks from outside -/

/-- A tick from outside presents its own word. -/
@[simp] theorem present_tickWith (w : InputWord) (s : State) :
    ({ s with inputs := .tick w :: s.inputs } : State).present = .tick w := rfl

/-- A tick in IDLE without `rst` and `start` writes `done_q` and nothing else of the block (R112). -/
theorem tickWith_nop {s : State} {w : InputWord} (hi : s.st = .idle) (hr : w.rst = false)
    (hs : w.start = false) :
    tickWith w s = .next { s with done_q := false, tick := s.tick + 1 } := by
  unfold tickWith
  rw [step_tick (present_tickWith w s), hr, hs]
  simp only [hi, Bool.false_eq_true, if_false]
  rfl

/-- A tick in IDLE with `start` and without `rst` begins a transaction (R110). -/
theorem tickWith_read {s : State} {w : InputWord} (hi : s.st = .idle) (hr : w.rst = false)
    (hs : w.start = true) :
    tickWith w s = .next { s with st := .startLow, dly_cnt := 0, pt_cnt := 0, bit_cnt := 0,
                                  shreg := 0, done_q := false, tick := s.tick + 1 } := by
  unfold tickWith
  rw [step_tick (present_tickWith w s), hr, hs]
  simp only [hi, Bool.false_eq_true, if_false, if_true]
  rfl

@[simp] theorem runLogged_nil (s : State) (h : HostLog) : runLogged [] s h = .next (s, h) := rfl

theorem runLogged_cons {w : InputWord} {s t : State} (ws : List InputWord) (h : HostLog)
    (e : tickWith w s = .next t) : runLogged (w :: ws) s h = runLogged ws t (h.after s w t) := by
  simp [runLogged, e]

/-! ## Runs -/

@[simp] theorem runSteps_zero (s : State) : runSteps 0 s = .next s := rfl

theorem runSteps_succ {s t : State} (n : Nat) (h : step s = .next t) :
    runSteps (n + 1) s = runSteps n t := by
  simp [runSteps, h]

/-- A run of `m + n` steps is a run of `m` followed by a run of `n`. -/
theorem runSteps_add {m n : Nat} {s t : State} (h : runSteps m s = .next t) :
    runSteps (m + n) s = runSteps n t := by
  induction m generalizing s with
  | zero => cases h; simp
  | succ m ih =>
    rw [Nat.add_right_comm]
    cases hs : step s with
    | next u => rw [runSteps_succ _ hs] at h ⊢; exact ih h
    | fault f => simp [runSteps, hs] at h
    | refused r => simp [runSteps, hs] at h

/-- The host's run of the machine is this one. -/
theorem core_run_eq (n : Nat) (s : State) : Host.Core.run Sys2Proof.core n s = runSteps n s := by
  induction n generalizing s with
  | zero => rfl
  | succ n ih =>
    have e : Sys2Proof.core.step s = step s := rfl
    cases hs : step s with
    | next u => rw [runSteps_succ _ hs, ← ih u]; simp only [Host.Core.run, e, hs]
    | fault f => simp only [Host.Core.run, runSteps, e, hs]; rfl
    | refused r => simp only [Host.Core.run, runSteps, e, hs]; rfl

end Sys2Proof.Machine
end

