-- ==== Sys2Proof/Tests/Slice0.lean ====
section
/-! SUPPORT. The model's own tests.  Expected results are the spec's: the vectors T, P, V, K, H and W of
95_test_vectors.md, the examples of the rules, and words written out from opcode_table.json.  Then one
witness for each statement that has hypotheses: a concrete state and operands that meet them all. -/

namespace Sys2Proof.Tests

open Sys2Proof Sys2Proof.Machine

/-! ## Ill-formed terms are refused -/

theorem test_ptMeasure_timeout_zero_is_ill_formed : (Instr.ptMeasure .high 0).wellFormed = false := by
  decide

theorem test_ptMeasure_timeout_one_is_well_formed : (Instr.ptMeasure .high 1).WellFormed := by decide

/-- The default record of R8, one field changed in each of the tests below. -/
def defaults : Params := ⟨20000, 30, 85, 85, 56, 75, 40⟩

theorem test_defaults_are_well_formed : defaults.check = none := by decide

theorem test_tStartLow_below_range : { defaults with tStartLow := 17999 }.check = some .tStartLow := by
  decide

theorem test_tStartHigh_above_range :
    { defaults with tStartHigh := 41 }.check = some .tStartHigh := by decide

theorem test_toHsLow_zero : { defaults with toHsLow := 0 }.check = some .toHsLow := by decide

theorem test_toHsHigh_above_range : { defaults with toHsHigh := 256 }.check = some .toHsHigh := by decide

theorem test_toBitLow_zero : { defaults with toBitLow := 0 }.check = some .toBitLow := by decide

theorem test_toBitHigh_above_range : { defaults with toBitHigh := 256 }.check = some .toBitHigh := by
  decide

theorem test_bitThreshold_above_range :
    { defaults with bitThreshold := 255 }.check = some .bitThreshold := by decide

theorem test_bitThreshold_not_below_timeout :
    { defaults with bitThreshold := 75 }.check = some .thresholdNotBelowTimeout := by decide

theorem test_build_refuses_by_name :
    (match Config.build { defaults with toHsLow := 0 } with
      | .ok _ => none
      | .error e => some e) = some ParamError.toHsLow := by decide

/-! ## Words written out from the table (one and more for each row) -/

theorem test_decode_reset : decodeTableWord 8 0b000100 = some .reset := by decide

theorem test_decode_reset_first : decodeTableWord 8 0b101110 = some .reset := by decide

theorem test_decode_read : decodeTableWord 8 0b000010 = some .read := by decide

theorem test_decode_readBusy : decodeTableWord 8 0b110011 = some (.readBusy .bitHigh .high) := by decide

theorem test_decode_nop : decodeTableWord 8 0b000001 = some .nop := by decide

theorem test_decode_startLow : decodeTableWord 8 0b001000 = some .stateStartLow := by decide

theorem test_decode_startHigh : decodeTableWord 8 0b010001 = some .stateStartHigh := by decide

theorem test_decode_hsLow : decodeTableWord 8 0b011001 = some (.stateHsLow .high) := by decide

theorem test_decode_hsHigh : decodeTableWord 8 0b100000 = some (.stateHsHigh .low) := by decide

theorem test_decode_bitLow : decodeTableWord 8 0b101001 = some (.stateBitLow .high) := by decide

theorem test_decode_bitHigh : decodeTableWord 8 0b110000 = some (.stateBitHigh .low) := by decide

theorem test_decode_unused : decodeTableWord 8 0b111000 = some .stateUnused := by decide

/-- R72: the default HS_LOW word `1_01010101`. -/
theorem test_decode_ptMeasure : decodeTableWord 16 0b101010101 = some (.ptMeasure .high 85) := by decide

/-- R73, R150's example. -/
theorem test_decode_ckValidate :
    decodeTableWord 40 0x2D00170044 = some (.ckValidate (frameOfBytes 45 0 23 0 68)) := by decide

theorem test_decode_refuses_a_bit_above : decodeTableWord 8 0x40 = none := by decide

theorem test_decode_refuses_a_length : decodeTableWord 24 0 = none := by decide

/-! ## One step of each instruction -/

/-- The registers a test looks at, after one step. -/
def afterStep (s : State) : Option State :=
  match step s with
  | .next t => some t
  | .fault _ => none
  | .refused _ => none

/-- The reset state put into a state, with a tick's input word presented. -/
def ticking (st : StateCode) (rst start : Bool) (line : Level) : State :=
  { State.reset with st := st, inputs := [.tick { rst := rst, start := start, line_in := line }] }

/-- H1, R191: a reset in the completion step wins. -/
theorem test_reset_beats_completion :
    (afterStep { ticking .bitHigh true false .low with
        pt_cnt := 26, bit_cnt := 39, shreg := 0x16800B8022#40, frame_q := 5, outcome_q := .ok }).map
      (fun t => (t.st, t.done_q, t.outcome_q, t.frame_q, t.bit_cnt)) =
    some (.idle, false, .none, 0, 0) := by decide

/-- T19, R192: reset releases the line. -/
theorem test_reset_releases_the_line :
    ((ticking .startLow true true .high).line_oe,
      (afterStep { ticking .startLow true true .high with dly_cnt := 99 }).map
        (fun t => (t.line_oe, t.dly_cnt, t.status))) = (true, some (false, 0, 0)) := by decide

/-- T1. -/
theorem test_read_starts :
    (afterStep { ticking .idle false true .low with
        done_q := true, bit_cnt := 40, shreg := 7, outcome_q := .ok, frame_q := 9 }).map
      (fun t => (t.st, t.bit_cnt, t.shreg, t.done_q, t.outcome_q, t.frame_q)) =
    some (.startLow, 0, 0, false, .ok, 9) := by decide

/-- R110: `line_in` is ignored, and the line is driven low from the next tick. -/
theorem test_read_drives_low :
    (afterStep (ticking .idle false true .high)).map
      (fun t => (t.line_oe, t.line_out, t.busy, t.tick)) = some (true, .low, true, 1) := by decide

/-- T3: `start` in START_LOW is ignored. -/
theorem test_readBusy_counts_on :
    (afterStep { ticking .startLow false true .high with dly_cnt := 5 }).map
      (fun t => (t.st, t.dly_cnt)) = some (.startLow, 6) := by decide

/-- T15 with `start = 1` (R167 item 3): the timeout stands, the READ is ignored. -/
theorem test_readBusy_in_a_completion :
    (afterStep { ticking .bitHigh false true .high with
        pt_cnt := 74, bit_cnt := 12, shreg := 3, frame_q := 9 }).map
      (fun t => (t.st, t.outcome_q, t.phase_q, t.bit_cnt, t.frame_q, t.done_q)) =
    some (.idle, .timeout, .bitHigh, 12, 9, true) := by decide

/-- T2. -/
theorem test_nop_clears_done :
    (afterStep { ticking .idle false false .low with
        done_q := true, outcome_q := .ok, bit_cnt := 40, frame_q := 9 }).map
      (fun t => (t.st, t.done_q, t.outcome_q, t.bit_cnt, t.frame_q)) =
    some (.idle, false, .ok, 40, 9) := by decide

/-- T4. -/
theorem test_startLow_ends :
    (afterStep { ticking .startLow false false .low with dly_cnt := 19999 }).map
      (fun t => (t.st, t.dly_cnt, t.line_out)) = some (.startHigh, 0, .high) := by decide

/-- T4, one tick earlier. -/
theorem test_startLow_goes_on :
    (afterStep { ticking .startLow false false .low with dly_cnt := 19998 }).map
      (fun t => (t.st, t.dly_cnt)) = some (.startLow, 19999) := by decide

/-- T5. -/
theorem test_startHigh_goes_on :
    (afterStep { ticking .startHigh false false .low with dly_cnt := 28 }).map
      (fun t => (t.st, t.dly_cnt)) = some (.startHigh, 29) := by decide

/-- T6. -/
theorem test_startHigh_releases :
    (afterStep { ticking .startHigh false false .high with dly_cnt := 29, pt_cnt := 3 }).map
      (fun t => (t.st, t.dly_cnt, t.pt_cnt, t.line_oe)) = some (.hsLow, 0, 0, false) := by decide

/-- T7. -/
theorem test_hsLow_done :
    (afterStep { ticking .hsLow false false .low with pt_cnt := 20 }).map
      (fun t => (t.st, t.pt_cnt)) = some (.hsHigh, 0) := by decide

/-- T8. -/
theorem test_hsLow_timeout :
    (afterStep { ticking .hsLow false false .high with pt_cnt := 84 }).map
      (fun t => (t.st, t.outcome_q, t.phase_q, t.done_q, t.status)) =
    some (.idle, .timeout, .hsLow, true, 0x6000#16) := by decide

/-- T9. -/
theorem test_hsHigh_done :
    (afterStep { ticking .hsHigh false false .high with pt_cnt := 79 }).map
      (fun t => (t.st, t.pt_cnt)) = some (.bitLow, 0) := by decide

/-- T10. -/
theorem test_hsHigh_timeout :
    (afterStep { ticking .hsHigh false false .low with pt_cnt := 84 }).map
      (fun t => (t.st, t.phase_q, t.status)) = some (.idle, .hsHigh, 0x6400#16) := by decide

/-- T11. -/
theorem test_bitLow_handover :
    (afterStep (ticking .bitLow false false .high)).map
      (fun t => (t.st, t.pt_cnt, t.bit_cnt)) = some (.bitHigh, 0, 0) := by decide

/-- T12. -/
theorem test_bitLow_timeout :
    (afterStep { ticking .bitLow false false .low with pt_cnt := 55, bit_cnt := 7 }).map
      (fun t => (t.st, t.phase_q, t.bit_cnt, t.done_q)) = some (.idle, .bitLow, 7, true) := by decide

/-- T14. -/
theorem test_bitHigh_one :
    (afterStep { ticking .bitHigh false false .low with pt_cnt := 40, bit_cnt := 1 }).map
      (fun t => (t.st, t.shreg, t.bit_cnt)) = some (.bitLow, 1, 2) := by decide

/-- T17. -/
theorem test_bitHigh_finishes :
    (afterStep { ticking .bitHigh false false .low with
        pt_cnt := 26, bit_cnt := 39, shreg := 0x16800B8022#40 }).map
      (fun t => (t.st, t.frame_q, t.shreg, t.outcome_q, t.status)) =
    some (.idle, 0x2D00170044#40, 0x2D00170044#40, .ok, 0x5280#16) := by decide

/-- T18 with `start = 0`. -/
theorem test_unused_recovers :
    (afterStep { ticking .unused false false .high with dly_cnt := 3 }).map
      (fun t => (t.st, t.dly_cnt, t.done_q)) = some (.idle, 0, false) := by decide

/-- P1a, run on its own as the first instruction after reset (assumption 4). -/
theorem test_ptMeasure_timeout :
    (afterStep ({ ticking .idle false false .high with pt_cnt := 84 }.withFetchWord 16 0x155)).map
      (fun t => (t.pt_cnt, t.unit_result, t.tick)) = some (0, some (.pulse .timeout), 0) := by decide

/-- P6. -/
theorem test_ptMeasure_done_at_the_timeout :
    (afterStep ({ ticking .idle false false .high with pt_cnt := 55 }.withFetchWord 16 0x038)).map
      (fun t => (t.pt_cnt, t.unit_result)) = some (0, some (.pulse (.done 56))) := by decide

/-- V8. -/
theorem test_ckValidate_wraps :
    (afterStep (State.reset.withFetchWord 40 0xFFFFFFFFFC)).map (fun t => t.unit_result) =
    some (some (.valid true)) := by decide

/-- V4. -/
theorem test_ckValidate_invalid :
    (afterStep (State.reset.withFetchWord 40 0xFF010000FF)).map (fun t => t.unit_result) =
    some (some (.valid false)) := by decide

/-! ## Operations -/

/-- K4, K5. -/
theorem test_classify_boundary :
    (classify Config.default 40, classify Config.default 41) = (false, true) := by decide

/-- K11. -/
theorem test_shiftIn : shiftIn 0b101#40 true = 0b1011#40 := by decide

/-- P9 and P10: the largest counts. -/
theorem test_ptEval_largest_count :
    (ptEval .low 255 253 .low, ptEval .low 255 254 .low) = ((.busy, 254), (.timeout, 0)) := by decide

/-- R78: FRAME of program A begins `H×28 L×50 H×27 L×50 H×70`. -/
theorem test_frameRuns :
    (frameRuns 0x2D00170044#40).take 5 =
      [⟨.high, 28⟩, ⟨.low, 50⟩, ⟨.high, 27⟩, ⟨.low, 50⟩, ⟨.high, 70⟩] := by decide

/-- R78: a FRAME ends with `L…`, so every sample after its runs is low, whatever follows it in the list
and whatever the driver gives at an `x`. -/
theorem test_frame_holds_low :
    (Response.ofItems .high [.ack 20 80, .frame 45 0 23 0 68, .hold .high]).final = .low ∧
    (Response.ofItems .high [.ack 20 80, .frame 45 0 23 0 68]).runs =
      ackRuns 20 80 ++ frameRuns 0x2D00170044#40 := by decide

/-- R77: W27's `RESP H×20 L×80 H…`, samples 20, 21, 100, 101 and a late one. -/
theorem test_response_holds_its_final_level :
    ([20, 21, 100, 101, 5000].map
      (Response.ofItems .low [.run ⟨.high, 20⟩, .run ⟨.low, 80⟩, .hold .high]).sample) =
    [.high, .low, .low, .high, .high] := by decide

/-- Program E's first six ticks: the READ at tick 5 is ignored, and `S_6` has `dly_cnt = 5`. -/
theorem test_script_program_E :
    (match Driver.script .high 0 [.read, .nop 4, .read]
        { machine := State.reset, response := { runs := [], final := .low }, given := none } with
      | .next d => some (d.machine.st, d.machine.dly_cnt, d.machine.tick)
      | .fault _ => none
      | .refused _ => none) = some (.startLow, 5, 6) := by decide

/-! ## Witnesses: each statement's hypotheses are met by a concrete state and operands -/

/-- A word that asks for nothing. -/
def quiet (line : Level) : InputWord := { rst := false, start := false, line_in := line }

/-- Words that feed given levels. -/
def wordsOf (levels : List Level) : List InputWord := levels.map quiet

/-- A state at response sample 1 that is fed given levels. -/
def responding (levels : List Level) : State :=
  { State.reset with st := .hsLow, inputs := scheduled (wordsOf levels) [] }

theorem feeds_responding (levels : List Level) :
    feeds (responding levels) (wordsOf levels) [] levels := by
  refine ⟨rfl, ?_, ?_⟩
  · intro w hw
    obtain ⟨l, -, rfl⟩ := List.mem_map.1 hw
    rfl
  · simp [wordsOf, quiet, Function.comp_def]

theorem atResponse_responding (levels : List Level) : atResponse (responding levels) :=
  ⟨rfl, rfl, rfl, rfl⟩

theorem witness_ConfigIsBuiltExactlyWhenInRange :
    (∃ c, Config.build defaults = .ok c ∧ c.toParams = defaults) ∧
    (18000 ≤ defaults.tStartLow ∧ defaults.bitThreshold < defaults.toBitHigh) :=
  ⟨⟨Config.default, rfl, rfl⟩, by decide⟩

theorem witness_ResetTickGivesTheResetState :
    (ticking .startLow true true .high).present = .tick ⟨true, true, .high⟩ := rfl

theorem witness_HeldResetKeepsTheResetState :
    ∃ (s : State) (ws : List InputWord), s.inputs = scheduled ws [] ∧ ws ≠ [] ∧
      (∀ w ∈ ws, w.rst = true) :=
  ⟨{ State.reset with st := .unused,
                      inputs := scheduled [⟨true, false, .low⟩, ⟨true, true, .high⟩] [] },
    [⟨true, false, .low⟩, ⟨true, true, .high⟩], rfl, by decide, by decide⟩

theorem witness_IdleStaysIdleUntilStart :
    ∃ (s : State) (ws : List InputWord), s.st = .idle ∧ s.done_q = true ∧ s.inputs = scheduled ws [] ∧
      ws.length = 2 ∧ (∀ w ∈ ws, w.rst = false ∧ w.start = false) :=
  ⟨{ State.reset with done_q := true, inputs := scheduled (wordsOf [.low, .high]) [] },
    wordsOf [.low, .high], rfl, rfl, rfl, rfl, by decide⟩

theorem witness_ReadStartsATransaction :
    (ticking .idle false true .high).present = .tick ⟨false, true, .high⟩ ∧
    (ticking .idle false true .high).st = .idle := ⟨rfl, rfl⟩

theorem witness_ReadWhileBusyIsTheStateOperation :
    (ticking .bitHigh false true .low).st ≠ .idle ∧ (quiet .low).rst = false := by decide

theorem witness_NopInIdleOnlyClearsDone :
    (ticking .idle false false .high).present = .tick (quiet .high) ∧
    (ticking .idle false false .high).st = .idle := ⟨rfl, rfl⟩

theorem witness_StartLowCountsItsDelay :
    let at' := fun n : BitVec 16 => { State.reset with st := .startLow, dly_cnt := n }
    (at' 19999).dly_cnt.toNat = (at' 19999).cfg.tStartLow - 1 ∧
    (at' 20000).dly_cnt.toNat ≠ (at' 20000).cfg.tStartLow - 1 ∧
    (at' 19998).dly_cnt.toNat < (at' 19998).cfg.tStartLow - 1 ∧ (at' 0).st = .startLow := by decide

theorem witness_StartHighCountsItsDelay :
    let at' := fun n : BitVec 16 => { State.reset with st := .startHigh, dly_cnt := n }
    (at' 29).dly_cnt.toNat = (at' 29).cfg.tStartHigh - 1 ∧
    (at' 28).dly_cnt.toNat ≠ (at' 28).cfg.tStartHigh - 1 ∧ (at' 0).st = .startHigh := by decide

theorem witness_UnusedCodeRecoversToIdle : { State.reset with st := .unused }.st = .unused := rfl

/-- The three clauses at their boundary: `T - 2` and `T - 1` samples counted before this one. -/
theorem witness_HsLowWaitsForTheLineToFall :
    { State.reset with pt_cnt := 83 }.pt_cnt.toNat + 1 < State.reset.cfg.toHsLow ∧
    State.reset.cfg.toHsLow ≤ { State.reset with pt_cnt := 84 }.pt_cnt.toNat + 1 := by decide

theorem witness_HsHighWaitsForTheLineToRise :
    { State.reset with pt_cnt := 83 }.pt_cnt.toNat + 1 < State.reset.cfg.toHsHigh ∧
    State.reset.cfg.toHsHigh ≤ { State.reset with pt_cnt := 84 }.pt_cnt.toNat + 1 := by decide

theorem witness_BitLowMeasuresALowPhase :
    { State.reset with pt_cnt := 54 }.pt_cnt.toNat + 1 < State.reset.cfg.toBitLow ∧
    State.reset.cfg.toBitLow ≤ { State.reset with pt_cnt := 55 }.pt_cnt.toNat + 1 := by decide

/-- K12 and K13: the 40th bit completes a Valid and an Invalid frame; bit 39 is not the 40th. -/
theorem witness_BitHighClassifiesAndAssembles :
    let bitAt := fun (c : BitVec 8) (n : BitVec 6) =>
      { State.reset with pt_cnt := c, bit_cnt := n, shreg := 0x16800B8022#40 }
    let next := fun s : State => s.shreg.extractLsb' 0 39 ++
      BitVec.ofBool (decide (s.pt_cnt.toNat + 1 > s.cfg.bitThreshold))
    (bitAt 73 0).pt_cnt.toNat + 1 < (bitAt 73 0).cfg.toBitHigh ∧
    (bitAt 74 0).cfg.toBitHigh ≤ (bitAt 74 0).pt_cnt.toNat + 1 ∧
    (bitAt 39 38).bit_cnt ≠ 39 ∧
    ckValid (next (bitAt 39 39)) = true ∧ ckValid (next (bitAt 40 39)) = false := by decide

theorem witness_ClassificationIsStrict : (1 ≤ 40 ∧ 40 ≤ 40) ∧ (41 ≤ 41 ∧ 41 ≤ 75) := by decide

theorem witness_BitsAreAssembledMostSignificantFirst :
    (List.replicate 39 false ++ [true]).length = 40 ∧ 39 < 40 ∧ 4 < 5 := by decide

theorem witness_PulseTimerEvaluation :
    Level.low ≠ Level.high ∧ (85#8).toNat ≤ (84#8).toNat + 1 ∧ (83#8).toNat + 1 < (85#8).toNat := by
  decide

theorem witness_PulseTimerDoneIsInRange :
    (84#8).toNat < (85#8).toNat ∧ ptEval .high 85#8 84#8 .low = (.done 85, 0) := by decide

theorem witness_PtMeasureWritesOnlyPtCnt :
    let s := fun (n : BitVec 8) (l : Level) => { ticking .hsLow false false l with pt_cnt := n }
    (s 84 .low).sample ≠ .high ∧
    ((s 84 .high).sample = .high ∧ (85#8).toNat ≤ (s 84 .high).pt_cnt.toNat + 1) ∧
    ((s 83 .high).sample = .high ∧ (s 83 .high).pt_cnt.toNat + 1 < (85#8).toNat) := by decide

/-- All three lengths: below the timeout, followed by a sample away from the target, and the timeout
itself. -/
theorem witness_PulseTimerCallClosedForm :
    (∃ (s : State) (ws : List InputWord) (w : InputWord), s.st = Phase.bitHigh.state ∧ s.pt_cnt = 0 ∧
      s.inputs = scheduled ws [.tick w] ∧ (∀ x ∈ ws, x.rst = false) ∧
      (∀ x ∈ ws, x.line_in = Phase.bitHigh.target) ∧
      ws.length < Phase.bitHigh.timeoutTicks s.cfg ∧ w.rst = false ∧
      w.line_in ≠ Phase.bitHigh.target) ∧
    (∃ (s : State) (ws : List InputWord), s.st = Phase.hsLow.state ∧ s.pt_cnt = 0 ∧
      s.inputs = scheduled ws [] ∧ (∀ x ∈ ws, x.rst = false) ∧
      (∀ x ∈ ws, x.line_in = Phase.hsLow.target) ∧ ws.length = Phase.hsLow.timeoutTicks s.cfg) := by
  refine ⟨⟨{ State.reset with st := .bitHigh, bit_cnt := 39,
                              inputs := scheduled (List.replicate 74 (quiet .high))
                                [.tick (quiet .low)] },
      List.replicate 74 (quiet .high), quiet .low, rfl, rfl, rfl, ?_, ?_, ?_, rfl, by decide⟩,
    ⟨{ State.reset with st := .hsLow,
                        inputs := scheduled (List.replicate 85 (quiet .high)) [] },
      List.replicate 85 (quiet .high), rfl, rfl, rfl, ?_, ?_, ?_⟩⟩
  all_goals first
    | (intro x hx; rw [List.eq_of_mem_replicate hx]; rfl)
    | (rw [List.length_replicate]; decide)

theorem witness_OneFlippedBitIsDetected : 39 < 40 ∧ ckValid 0x2D00170044#40 = true := by decide

theorem witness_CommandPriority :
    (quiet .low).rst = false ∧ (quiet .low).start = false ∧ StateCode.unused = BusyState.unused.state := by
  decide

theorem witness_StepRunsTheDecodedInstruction :
    decode (ticking .hsLow false false .high).fetchWord = .stateHsLow .high ∧
    decode (State.reset.withFetchWord 16 0x155).fetchWord = .ptMeasure .high 85 ∧
    (State.reset.withFetchWord 16 0x155).present = .ptWord 0x155#9 ∧
    (State.reset.withFetchWord 40 7).present = .ckWord 7#40 := by decide

theorem witness_RegistersDependOnlyOnConfigStateAndInput :
    ∃ (s1 s2 t1 t2 : State) (w : InputWord), s1 ≠ s2 ∧ sameRegisters s1 s2 ∧ s1.cfg = s2.cfg ∧
      s1.present = .tick w ∧ s2.present = .tick w ∧ step s1 = .next t1 ∧ step s2 = .next t2 :=
  ⟨ticking .bitHigh false false .low, { ticking .bitHigh false false .low with tick := 7 }, _, _, _,
    by decide, ⟨rfl, rfl, rfl, rfl, rfl, rfl, rfl, rfl, rfl⟩, rfl, rfl, rfl, rfl, rfl⟩

/-- T17's state before the step: the last bit of program A's frame. -/
def lastBit : State :=
  { ticking .bitHigh false false .low with pt_cnt := 26, bit_cnt := 39, shreg := 0x16800B8022#40 }

theorem lastBit_inv : Inv lastBit := by
  constructor
  case ptBound => intro p; cases p <;> decide
  all_goals decide

theorem witness_StepIsTheTransitionTable :
    ∃ w, Inv lastBit ∧ lastBit.present = .tick w ∧ w.rst = false := ⟨_, lastBit_inv, rfl, rfl⟩

theorem witness_NoStepChangesTheConfiguration : ∃ t, step lastBit = .next t := ⟨_, rfl⟩

theorem witness_LineIsIgnoredOutsidePulseStates :
    let s := ticking .startHigh false false .high
    s.st ≠ .hsLow ∧ s.st ≠ .hsHigh ∧ s.st ≠ .bitLow ∧ s.st ≠ .bitHigh := by decide

/-- One state for each of the three ways back to IDLE. -/
theorem witness_BusyEndsOnlyByCompletionOrReset :
    (∃ w t, (ticking .startLow true false .low).present = .tick w ∧ w.rst = true ∧
      step (ticking .startLow true false .low) = .next t ∧ t.st = .idle) ∧
    (∃ w t, lastBit.present = .tick w ∧ lastBit.st ≠ .idle ∧ lastBit.st ≠ .unused ∧
      step lastBit = .next t ∧ t.st = .idle) ∧
    (∃ w t, { ticking .hsHigh false false .low with pt_cnt := 84 }.present = .tick w ∧
      step { ticking .hsHigh false false .low with pt_cnt := 84 } = .next t ∧ t.st = .idle) :=
  ⟨⟨_, _, rfl, rfl, rfl, rfl⟩, ⟨_, _, rfl, by decide, by decide, rfl, rfl⟩, ⟨_, _, rfl, rfl, rfl⟩⟩

theorem witness_DoneMarksExactlyTheCompletions :
    ∃ w t, lastBit.present = .tick w ∧ step lastBit = .next t ∧ t.done_q = true :=
  ⟨_, _, rfl, rfl, rfl⟩

theorem witness_CompletionPublishesInOneStep :
    (∃ w t, lastBit.present = .tick w ∧ step lastBit = .next t ∧ t.done_q = true ∧
      t.outcome_q = .ok) ∧
    (∃ w t, { ticking .hsLow false false .high with pt_cnt := 84 }.present = .tick w ∧
      step { ticking .hsLow false false .high with pt_cnt := 84 } = .next t ∧ t.done_q = true ∧
      t.outcome_q = .timeout) :=
  ⟨⟨_, _, rfl, rfl, rfl, by decide⟩, ⟨_, _, rfl, rfl, rfl, rfl⟩⟩

theorem witness_PublishedRegistersChangeOnlyAtCompletions :
    (∃ w t, lastBit.present = .tick w ∧ step lastBit = .next t ∧ w.rst = false ∧
      t.outcome_q ≠ lastBit.outcome_q ∧ t.frame_q ≠ lastBit.frame_q) ∧
    (∃ w t, { ticking .hsHigh false false .low with pt_cnt := 84 }.present = .tick w ∧
      step { ticking .hsHigh false false .low with pt_cnt := 84 } = .next t ∧ w.rst = false ∧
      t.phase_q ≠ State.reset.phase_q) ∧
    (∃ w t, (ticking .bitLow true false .low).present = .tick w ∧
      step (ticking .bitLow true false .low) = .next t ∧ w.rst = true) :=
  ⟨⟨_, _, rfl, rfl, rfl, by decide, by decide⟩, ⟨_, _, rfl, rfl, rfl, by decide⟩,
    ⟨_, _, rfl, rfl, rfl⟩⟩

theorem witness_EveryStepKeepsTheInvariants : ∃ t, Inv lastBit ∧ step lastBit = .next t :=
  ⟨_, lastBit_inv, rfl⟩

theorem witness_ReachableStatesMeetTheSevenItems :
    ∃ t bits, Reachable t bits ∧ t.st = .startLow ∧ t.bit_cnt = 0 :=
  ⟨_, _, .step _ _ _ (.reset Config.default [⟨false, true, .high⟩] 0) rfl, rfl, rfl⟩

theorem witness_StartSequenceTimeline :
    ∃ (s : State) (r : InputWord) (ws : List InputWord), s.st = .idle ∧ r.rst = false ∧
      r.start = true ∧ (∀ w ∈ ws, w.rst = false) ∧ s.inputs = scheduled (r :: ws) [] ∧
      ws.length = s.cfg.tStartLow + s.cfg.tStartHigh :=
  ⟨{ State.reset with inputs := scheduled (⟨false, true, .low⟩ :: List.replicate 20030 (quiet .low)) [] },
    ⟨false, true, .low⟩, List.replicate 20030 (quiet .low), rfl, rfl, rfl,
    fun w hw => by rw [List.eq_of_mem_replicate hw]; rfl, rfl,
    (List.length_replicate).trans rfl⟩

/-- Every bound of R126 at its upper end. -/
theorem witness_LineWithinTheBoundsDecodes :
    ∃ (s : State) (widths : List (Nat × Nat)) (ws : List InputWord),
      atResponse s ∧ headFits s.cfg 84 85 76 ∧ widths.length = 39 ∧ widthsFit s.cfg widths ∧
      feeds s ws [] (expandRuns (waveform 84 85 76 widths ++ [⟨.low, 1⟩])) := by
  refine ⟨responding (expandRuns (waveform 84 85 76 (List.replicate 39 (56, 75)) ++ [⟨.low, 1⟩])),
    List.replicate 39 (56, 75), wordsOf _, atResponse_responding _, ?_, List.length_replicate, ?_,
    feeds_responding _⟩
  · exact ⟨by decide, by decide, by decide, by decide, by decide⟩
  · intro p hp
    rw [List.eq_of_mem_replicate hp]
    exact ⟨by decide, by decide, by decide, by decide⟩

/-- The operands of the five clauses, and a state for the hypothesis of each. -/
theorem witness_FirstBrokenBoundTimesOut :
    headFits Config.default 0 1 2 ∧ widthsFit Config.default (List.replicate 38 (1, 1)) ∧
    (List.replicate 38 ((1 : Nat), (1 : Nat))).length ≤ 38 ∧
    (1 ≤ 56 ∧ 56 ≤ Config.default.toBitLow) ∧
    (∀ levels : List Level, levels ∈
        [expandRuns [⟨.high, Config.default.toHsLow⟩],
          expandRuns [⟨.high, 0⟩, ⟨.low, Config.default.toHsHigh + 1⟩],
          expandRuns (waveform 0 1 (Config.default.toBitHigh + 2) []),
          expandRuns (waveform 0 1 2 (List.replicate 38 (1, 1)) ++
            [⟨.low, Config.default.toBitLow + 1⟩]),
          expandRuns (waveform 0 1 2 (List.replicate 38 (1, 1)) ++
            [⟨.low, 56⟩, ⟨.high, Config.default.toBitHigh + 1⟩])] →
      (responding levels).cfg = Config.default ∧ atResponse (responding levels) ∧
      feeds (responding levels) (wordsOf levels) [] levels) := by
  refine ⟨⟨by decide, by decide, by decide, by decide, by decide⟩, ?_,
    Nat.le_of_eq List.length_replicate, by decide,
    fun levels _ => ⟨rfl, atResponse_responding levels, feeds_responding levels⟩⟩
  intro p hp
  rw [List.eq_of_mem_replicate hp]
  exact ⟨by decide, by decide, by decide, by decide⟩

theorem witness_ScriptedFrameIsReadBack :
    ∃ (s : State) (r : Response) (n : Nat) (ws : List InputWord), s.cfg = Config.default ∧
      atResponse s ∧ r = Response.ofItems .high [.ack 84 85, .frame 45 0 23 0 68] ∧
      n = (expandRuns r.runs).length + 1 ∧ feeds s ws [] (r.samples n) :=
  ⟨responding _, _, _, wordsOf _, rfl, atResponse_responding _, rfl, rfl, feeds_responding _⟩

theorem witness_TransactionEndsWithinTheBound :
    ∃ (s : State) (r : InputWord) (ws : List InputWord), s.st = .idle ∧ r.rst = false ∧
      r.start = true ∧ (∀ w ∈ ws, w.rst = false) ∧ s.inputs = scheduled (r :: ws) [] ∧
      ws.length = s.cfg.tStartLow + s.cfg.tStartHigh + s.cfg.toHsLow + s.cfg.toHsHigh +
        40 * (s.cfg.toBitLow + s.cfg.toBitHigh) :=
  ⟨{ State.reset with inputs := scheduled (⟨false, true, .low⟩ :: List.replicate 25440 (quiet .low)) [] },
    ⟨false, true, .low⟩, List.replicate 25440 (quiet .low), rfl, rfl, rfl,
    fun w hw => by rw [List.eq_of_mem_replicate hw]; rfl, rfl,
    (List.length_replicate).trans rfl⟩

/-- W28's configuration: `TO_HS_LOW = 1`. -/
def shortHandshake : Config := { Config.default with toHsLow := 1, ok := by decide }

/-- Scenario C under W28's configuration: the run ends 1 tick after the start sequence. -/
theorem witness_SilentSensorTimesOutAtTheStepOfR128 :
    ∃ (s : State) (r : InputWord) (ws : List InputWord), s.st = .idle ∧ r.rst = false ∧
      r.start = true ∧ (∀ w ∈ ws, w.rst = false) ∧
      (∀ w ∈ ws.drop (s.cfg.tStartLow + s.cfg.tStartHigh), w.line_in = .high) ∧
      s.inputs = scheduled (r :: ws) [] ∧
      ws.length = s.cfg.tStartLow + s.cfg.tStartHigh + s.cfg.toHsLow ∧ s.cfg.toHsLow = 1 :=
  ⟨{ State.reset with cfg := shortHandshake,
                      inputs := scheduled (⟨false, true, .low⟩ :: List.replicate 20031 (quiet .high)) [] },
    ⟨false, true, .low⟩, List.replicate 20031 (quiet .high), rfl, rfl, rfl,
    fun w hw => by rw [List.eq_of_mem_replicate hw]; rfl,
    fun w hw => by rw [List.eq_of_mem_replicate (List.mem_of_mem_drop hw)]; rfl, rfl,
    (List.length_replicate).trans rfl, rfl⟩

theorem witness_NoStateCarriesOverToTheNextRead :
    ∃ (s1 s2 : State) (r : InputWord), s1.st = .idle ∧ s2.st = .idle ∧ s1.cfg = s2.cfg ∧
      s1.inputs = s2.inputs ∧ s1.tick = s2.tick ∧ s1.inputs.all Stimulus.isTick = true ∧
      s1.present = .tick r ∧ r.rst = false ∧ r.start = true ∧ s1.frame_q ≠ s2.frame_q :=
  ⟨ticking .idle false true .low,
    { ticking .idle false true .low with
        frame_q := 0x2D00170044#40, shreg := 5, bit_cnt := 3, outcome_q := .timeout },
    _, rfl, rfl, rfl, rfl, rfl, rfl, rfl, rfl, rfl, by decide⟩

theorem witness_HostUpdatesItsCacheOnlyOnOk :
    { State.reset with done_q := true, outcome_q := .ok }.outcome_q = .ok ∧
    { State.reset with done_q := true, outcome_q := .timeout }.done_q = true ∧
    { State.reset with done_q := true, outcome_q := .checksum }.outcome_q = .checksum ∧
    State.reset.done_q = false := by decide

/-- The done tick of program A's last bit, and the two waits on either side of the boundary: tick
`E + 1999999` and tick `E + 2000000`. -/
theorem witness_StartInTheDoneTickBreaksTheSpacing :
    (∃ t w0, lastBit.present = .tick w0 ∧ step lastBit = .next t ∧ t.done_q = true) ∧
    (⟨none, true⟩ : HostLog).hasRead = true ∧
    (∃ ws : List InputWord, ws.length + 1 = 1999999 ∧ ∀ x ∈ ws, x.rst = false ∧ x.start = false) ∧
    (∃ ws : List InputWord, ws.length + 1 = 2000000 ∧ ∀ x ∈ ws, x.rst = false ∧ x.start = false) := by
  refine ⟨⟨_, _, rfl, rfl, rfl⟩, rfl, ⟨List.replicate 1999998 (quiet .high), ?_, ?_⟩,
    ⟨List.replicate 1999999 (quiet .high), ?_, ?_⟩⟩
  all_goals first
    | rw [List.length_replicate]
    | (intro x hx; rw [List.eq_of_mem_replicate hx]; exact ⟨rfl, rfl⟩)

end Sys2Proof.Tests
end

