-- ==== Sys2Proof/Proofs/Config.lean ====
section
/-! PROOF. When a configuration record is accepted (00_scope.md R8, R9): what `Params.check` answering
`none` says, and that `Config.build` accepts exactly the records that pass the check. -/

namespace Sys2Proof

/-- A check that names the condition it finds broken passes exactly when the condition holds and the
remaining checks pass. -/
theorem check_cons_eq_none_iff {c : Prop} [Decidable c] {e : ParamError} {rest : Option ParamError} :
    (if ¬c then some e else rest) = none ↔ c ∧ rest = none := by
  by_cases hc : c <;> simp [hc]

/-- R9: the check passes exactly when every parameter is inside its range of R8's table. -/
theorem Params.check_eq_none_iff (p : Params) :
    p.check = none ↔
      (18000 ≤ p.tStartLow ∧ p.tStartLow ≤ 65535) ∧ (20 ≤ p.tStartHigh ∧ p.tStartHigh ≤ 40) ∧
      (1 ≤ p.toHsLow ∧ p.toHsLow ≤ 255) ∧ (1 ≤ p.toHsHigh ∧ p.toHsHigh ≤ 255) ∧
      (1 ≤ p.toBitLow ∧ p.toBitLow ≤ 255) ∧ (1 ≤ p.toBitHigh ∧ p.toBitHigh ≤ 255) ∧
      p.bitThreshold ≤ 254 ∧ p.bitThreshold < p.toBitHigh := by
  simp only [Params.check, check_cons_eq_none_iff, and_true]

/-- A record that passes the check is built into the configuration that pairs it with that fact. -/
theorem Config.build_of_check_eq_none {p : Params} (h : p.check = none) :
    Config.build p = .ok ⟨p, h⟩ := by
  unfold Config.build
  split
  · rfl
  · next e he => cases h.symm.trans he

/-- A record is built into a configuration with its parameters exactly when it passes the check: a
configuration carries the fact that its own parameters pass. -/
theorem Config.exists_build_eq_ok_iff (p : Params) :
    (∃ c, Config.build p = .ok c ∧ c.toParams = p) ↔ p.check = none := by
  constructor
  · rintro ⟨c, -, rfl⟩
    exact c.ok
  · intro h
    exact ⟨⟨p, h⟩, Config.build_of_check_eq_none h, rfl⟩

/-- Settles O1: a record is built exactly when it passes the check, and the check is R8's table. -/
theorem configIsBuiltExactlyWhenInRange : Obligations.ConfigIsBuiltExactlyWhenInRange := fun p =>
  (Config.exists_build_eq_ok_iff p).trans p.check_eq_none_iff

end Sys2Proof
end

