-- ==== Sys2Proof/Proofs/State.lean ====
section
/-! PROOF. The state of the block (10_state.md): what a tick does to the assembly registers and to the
published registers, the invariants of R40 along every run from reset, and the outputs. -/

namespace Sys2Proof.Machine

/-! ## Pulse-timer states -/

/-- The sampling states are the four pulse-timer states. -/
theorem sampling_eq_true_iff (c : StateCode) :
    StateCode.sampling c = true ↔ c = .hsLow ∨ c = .hsHigh ∨ c = .bitLow ∨ c = .bitHigh := by
  cases c <;> simp [StateCode.sampling]

@[simp] theorem sampling_phase_state (p : Phase) : StateCode.sampling p.state = true := by
  cases p <;> rfl

/-- Every sampling state is the state of a phase (R71). -/
theorem sampling_eq_true_iff_exists_phase (c : StateCode) :
    StateCode.sampling c = true ↔ ∃ p : Phase, c = p.state := by
  constructor
  · intro h
    rcases (sampling_eq_true_iff c).1 h with rfl | rfl | rfl | rfl
    exacts [⟨.hsLow, rfl⟩, ⟨.hsHigh, rfl⟩, ⟨.bitLow, rfl⟩, ⟨.bitHigh, rfl⟩]
  · rintro ⟨p, rfl⟩
    exact sampling_phase_state p

@[simp] theorem phase_state_ne_idle (p : Phase) : p.state ≠ .idle := by cases p <;> decide

/-- A call that waits through this sample is not the end of a high phase (R71, R118). -/
theorem not_bitHigh_low_of_waiting {c : StateCode} {l : Level} {p : Phase} (hc : c = p.state)
    (hl : l = p.target) : ¬(c = .bitHigh ∧ l = .low) := by
  subst hc hl
  cases p <;> decide

/-! ## What a tick without reset does to the registers -/

section
variable {s u : State} {w : InputWord}

/-- No tick writes the configuration or the schedule. -/
theorem TickCase.keeps_cfg_inputs (h : TickCase s w u) : u.cfg = s.cfg ∧ u.inputs = s.inputs := by
  cases h <;> exact ⟨rfl, rfl⟩

/-- `bit_cnt` and `shreg` start anew at a READ, take one bit at the end of a high phase, and stay
otherwise (R110, R118). -/
theorem TickCase.assembly (h : TickCase s w u) :
    (s.st = .idle ∧ w.start = true ∧ u.bit_cnt = 0 ∧ u.shreg = 0) ∨
    (s.st = .bitHigh ∧ w.line_in = .low ∧ u.bit_cnt = s.bit_cnt + 1 ∧
      u.shreg = shiftIn s.shreg (classify s.cfg (s.pt_cnt.toNat + 1))) ∨
    (¬(s.st = .idle ∧ w.start = true) ∧ ¬(s.st = .bitHigh ∧ w.line_in = .low) ∧
      u.bit_cnt = s.bit_cnt ∧ u.shreg = s.shreg) := by
  cases h with
  | read hst hw => exact .inl ⟨hst, hw, rfl, rfl⟩
  | bit f hst hl _ hf => exact .inr (.inl ⟨hst, hl, rfl, hf⟩)
  | frame f hst hl h39 hf => exact .inr (.inl ⟨hst, hl, by simp [h39], hf⟩)
  | busy p hst hl | timeout p hst hl =>
    exact .inr (.inr ⟨by simp [hst], not_bitHigh_low_of_waiting hst hl, rfl, rfl⟩)
  | _ => exact .inr (.inr (by simp [*]))

/-- A tick completes nothing and publishes nothing, or it is a timeout, or it ends a full frame (R29,
R164, R121).  Without a completion only IDLE and code 7 lead to IDLE, and the bits stay there. -/
theorem TickCase.publishes (h : TickCase s w u) :
    (u.done_q = false ∧ u.outcome_q = s.outcome_q ∧ u.phase_q = s.phase_q ∧
      u.frame_q = s.frame_q ∧
      (u.st = .idle → (s.st = .idle ∨ s.st = .unused) ∧ u.bit_cnt = s.bit_cnt ∧
        u.shreg = s.shreg)) ∨
    (u.done_q = true ∧ u.st = .idle ∧ s.st = u.phase_q.state ∧ u.outcome_q = .timeout ∧
      u.frame_q = s.frame_q ∧ u.bit_cnt = s.bit_cnt) ∨
    (u.done_q = true ∧ u.st = .idle ∧ s.st = .bitHigh ∧
      u.outcome_q = (if ckValid u.frame_q then .ok else .checksum) ∧ u.phase_q = s.phase_q ∧
      u.bit_cnt = 40 ∧ u.frame_q = u.shreg) := by
  cases h with
  | timeout p hst => exact .inr (.inl ⟨rfl, rfl, hst, rfl, rfl, rfl⟩)
  | frame f hst => exact .inr (.inr ⟨rfl, rfl, hst, rfl, rfl, rfl, rfl⟩)
  | busy p hst => exact .inl (by simp [hst])
  | _ => exact .inl (by simp [*])

end

/-! ## The invariants of R40 -/

/-- R40 item 2 as a strict bound on `dly_cnt`: outside the start sequence it is 0. -/
def dlyLimit (cfg : Config) : StateCode → Nat
  | .startLow => cfg.tStartLow
  | .startHigh => cfg.tStartHigh
  | .idle | .hsLow | .hsHigh | .bitLow | .bitHigh | .unused => 1

/-- R40 item 3 as a strict bound on `pt_cnt`: outside the pulse-timer states it is 0. -/
def ptLimit (cfg : Config) : StateCode → Nat
  | .hsLow => cfg.toHsLow
  | .hsHigh => cfg.toHsHigh
  | .bitLow => cfg.toBitLow
  | .bitHigh => cfg.toBitHigh
  | .idle | .startLow | .startHigh | .unused => 1

/-- R40 item 4 as a bound on `bit_cnt`. -/
def bitLimit : StateCode → Nat
  | .startLow | .startHigh | .hsLow | .hsHigh => 0
  | .bitLow | .bitHigh => 39
  | .idle | .unused => 40

/-- R40 items 1 to 4: code 7 is not in use, and each counter is within the bound of its state. -/
structure InRange (s : State) : Prop where
  stUsed : s.st ≠ .unused
  dly : s.dly_cnt.toNat < dlyLimit s.cfg s.st
  pt : s.pt_cnt.toNat < ptLimit s.cfg s.st
  bit : s.bit_cnt.toNat ≤ bitLimit s.st

@[simp] theorem ptLimit_phase_state (cfg : Config) (p : Phase) :
    ptLimit cfg p.state = p.timeoutTicks cfg := by
  cases p <;> rfl

theorem ptLimit_of_not_sampling {c : StateCode} (cfg : Config) (h : StateCode.sampling c = false) :
    ptLimit cfg c = 1 := by
  cases c <;> simp_all [ptLimit, StateCode.sampling]

/-- R8: every call of the pulse timer has at least one tick. -/
theorem ptLimit_pos (cfg : Config) (c : StateCode) : 0 < ptLimit cfg c := by
  cases hc : StateCode.sampling c with
  | false => simp [ptLimit_of_not_sampling cfg hc]
  | true =>
    obtain ⟨p, rfl⟩ := (sampling_eq_true_iff_exists_phase c).1 hc
    have := timeoutTicks_bounds cfg p
    rw [ptLimit_phase_state]
    omega

theorem dlyLimit_pos (cfg : Config) (c : StateCode) : 0 < dlyLimit cfg c := by
  have := start_bounds cfg
  cases c <;> simp only [dlyLimit] <;> omega

theorem toNat_add_one_le {k : Nat} (c : BitVec k) : (c + 1).toNat ≤ c.toNat + 1 :=
  calc (c + 1).toNat = (c.toNat + (1 : BitVec k).toNat) % 2 ^ k := BitVec.toNat_add _ _
    _ ≤ c.toNat + (1 : BitVec k).toNat := Nat.mod_le _ _
    _ ≤ c.toNat + 1 := Nat.add_le_add_left (Nat.mod_le _ _) _

theorem eq_zero_of_toNat_lt_one {k : Nat} {c : BitVec k} (h : c.toNat < 1) : c = 0 :=
  BitVec.eq_of_toNat_eq (by simpa using h)

section
variable {s u : State} {w : InputWord}

/-- Items 1 to 4 of R40 pass through a tick without reset. -/
theorem TickCase.keeps_inRange (hc : TickCase s w u) (h : InRange s) : InRange u := by
  obtain ⟨hused, hdly, hpt, hbit⟩ := h
  cases hc with
  | read => exact ⟨nofun, dlyLimit_pos _ _, ptLimit_pos _ _, Nat.le_refl 0⟩
  | nop => exact ⟨hused, hdly, hpt, hbit⟩
  | startLowEnd hst =>
    rw [hst] at hpt hbit
    exact ⟨nofun, dlyLimit_pos _ _, hpt, hbit⟩
  | startHighEnd hst =>
    rw [hst] at hbit
    exact ⟨nofun, dlyLimit_pos _ _, ptLimit_pos _ _, hbit⟩
  | startLowCount hst hne | startHighCount hst hne =>
    have hlt : s.dly_cnt.toNat + 1 < dlyLimit s.cfg s.st := by
      simp only [hst, dlyLimit] at hdly ⊢
      omega
    exact ⟨hused, (toNat_add_one_le _).trans_lt hlt, hpt, hbit⟩
  | busy p hst _ hlt =>
    rw [← ptLimit_phase_state, ← hst] at hlt
    exact ⟨hused, hdly, (toNat_add_one_le _).trans_lt hlt, hbit⟩
  | timeout p hst =>
    have hidle : dlyLimit s.cfg s.st ≤ 1 := by cases p <;> simp [hst, Phase.state, dlyLimit]
    have hall : bitLimit s.st ≤ 40 := by cases p <;> simp [hst, Phase.state, bitLimit]
    exact ⟨nofun, hdly.trans_le hidle, ptLimit_pos _ _, hbit.trans hall⟩
  | hsLowDone hst | bitLowDone hst =>
    rw [hst] at hdly hbit
    exact ⟨nofun, hdly, ptLimit_pos _ _, hbit⟩
  | hsHighDone hst =>
    rw [hst] at hdly hbit
    exact ⟨nofun, hdly, ptLimit_pos _ _, hbit.trans (Nat.zero_le 39)⟩
  | bit f hst _ hne =>
    rw [hst] at hdly hbit
    have hlt : s.bit_cnt.toNat < 39 :=
      lt_of_le_of_ne hbit fun h39 => hne (BitVec.eq_of_toNat_eq h39)
    exact ⟨nofun, hdly, ptLimit_pos _ _, (toNat_add_one_le _).trans hlt⟩
  | frame f hst =>
    rw [hst] at hdly
    exact ⟨nofun, hdly, ptLimit_pos _ _, Nat.le_refl 40⟩
  | unused hst => exact absurd hst hused

/-- At the end of a high phase the bit counter counts the new bit without wrapping. -/
theorem InRange.bit_cnt_succ (h : InRange s) (hst : s.st = .bitHigh) :
    s.bit_cnt.toNat ≤ 39 ∧ (s.bit_cnt + 1).toNat = s.bit_cnt.toNat + 1 := by
  have hbit : s.bit_cnt.toNat ≤ 39 := by simpa [hst, bitLimit] using h.bit
  exact ⟨hbit, BitVec.toNat_add_of_lt (by simp; omega)⟩

/-- At the end of a high phase `shreg` loses no bit: it doubles and takes the new one (R120). -/
theorem InRange.shreg_shiftIn (h : InRange s) (hst : s.st = .bitHigh)
    (hsh : s.shreg.toNat < 2 ^ s.bit_cnt.toNat) (b : Bool) :
    (shiftIn s.shreg b).toNat = 2 * s.shreg.toNat + b.toNat := by
  have hpow : 2 ^ s.bit_cnt.toNat ≤ 2 ^ 39 :=
    Nat.pow_le_pow_right (by decide) (h.bit_cnt_succ hst).1
  have hb := b.toNat_le
  rw [shiftIn_toNat, Nat.mod_eq_of_lt (by omega)]

/-- Item 5 of R40, the part a single state shows, passes through a tick without reset. -/
theorem TickCase.keeps_shreg_lt (hc : TickCase s w u) (h : InRange s)
    (hsh : s.shreg.toNat < 2 ^ s.bit_cnt.toNat) : u.shreg.toNat < 2 ^ u.bit_cnt.toNat := by
  rcases hc.assembly with ⟨-, -, hb, hs⟩ | ⟨hst, -, hb, hs⟩ | ⟨-, -, hb, hs⟩
  · simp [hb, hs]
  · have hle := (classify s.cfg (s.pt_cnt.toNat + 1)).toNat_le
    rw [hs, hb, h.shreg_shiftIn hst hsh, (h.bit_cnt_succ hst).2, Nat.pow_succ]
    omega
  · rwa [hb, hs]

/-- Items 6 and 7 of R40, with what R121 and R163 add: `done_q`, the published registers, and the
assembly registers in IDLE. -/
structure Published (s : State) : Prop where
  doneIdle : s.done_q = true → s.st = .idle
  idleFrame : s.st = .idle → s.outcome_q = .ok ∨ s.outcome_q = .checksum →
    s.bit_cnt = 40 ∧ s.frame_q = s.shreg
  idleTimeout : s.st = .idle → s.outcome_q = .timeout → s.bit_cnt.toNat ≤ 39
  idleNone : s.st = .idle → s.outcome_q = .none → s.bit_cnt = 0 ∧ s.shreg = 0 ∧ s.frame_q = 0
  okValid : s.outcome_q = .ok → ckValid s.frame_q = true
  checksumInvalid : s.outcome_q = .checksum → ckValid s.frame_q = false
  noneClear : s.outcome_q = .none → s.phase_q = .hsLow ∧ s.frame_q = 0

/-- In a pulse-timer state at most 39 bits have been counted. -/
theorem InRange.bit_cnt_le_of_phase (h : InRange s) {p : Phase} (hst : s.st = p.state) :
    s.bit_cnt.toNat ≤ 39 := by
  have hbit := h.bit
  rw [hst] at hbit
  exact hbit.trans (by cases p <;> decide)

/-- A completed frame carries the outcome of its own checksum, and no other (R121). -/
theorem outcome_of_frame {f : Frame} {o : OutcomeClass}
    (ho : o = if ckValid f then .ok else .checksum) :
    o = .ok ∧ ckValid f = true ∨ o = .checksum ∧ ckValid f = false := by
  cases hv : ckValid f <;> simp [ho, hv]

/-- Items 6 and 7 of R40 pass through a tick without reset. -/
theorem TickCase.keeps_published (hc : TickCase s w u) (hr : InRange s) (h : Published s) :
    Published u := by
  rcases hc.publishes with ⟨hd, ho, hp, hf, hidle⟩ | ⟨-, hi, hst, ho, hf, hb⟩ |
    ⟨-, hi, -, ho, -, hb, hf⟩
  · have stayed (hi : u.st = .idle) :
        s.st = .idle ∧ u.bit_cnt = s.bit_cnt ∧ u.shreg = s.shreg :=
      ⟨(hidle hi).1.resolve_right hr.stUsed, (hidle hi).2⟩
    constructor
    case doneIdle => simp [hd]
    case idleFrame =>
      intro hi
      obtain ⟨hs, hb, hsh⟩ := stayed hi
      rw [ho, hb, hsh, hf]
      exact h.idleFrame hs
    case idleTimeout =>
      intro hi
      obtain ⟨hs, hb, -⟩ := stayed hi
      rw [ho, hb]
      exact h.idleTimeout hs
    case idleNone =>
      intro hi
      obtain ⟨hs, hb, hsh⟩ := stayed hi
      rw [ho, hb, hsh, hf]
      exact h.idleNone hs
    case okValid => rw [ho, hf]; exact h.okValid
    case checksumInvalid => rw [ho, hf]; exact h.checksumInvalid
    case noneClear => rw [ho, hp, hf]; exact h.noneClear
  · have hle : u.bit_cnt.toNat ≤ 39 := hb ▸ hr.bit_cnt_le_of_phase hst
    constructor <;> simp [hi, ho, hle]
  · rcases outcome_of_frame ho with ⟨ho, hv⟩ | ⟨ho, hv⟩ <;>
      constructor <;> simp [hi, ho, hb, hv, ← hf]

end

/-- The registers' bounds, as R40's invariants give them. -/
theorem Inv.inRange {s : State} (h : Inv s) : InRange s where
  stUsed := h.stUsed
  dly := by
    by_cases hl : s.st = .startLow
    · simpa [hl, dlyLimit] using h.dlyLow hl
    by_cases hh : s.st = .startHigh
    · simpa [hh, dlyLimit] using h.dlyHigh hh
    · simpa [h.dlyZero hl hh] using dlyLimit_pos s.cfg s.st
  pt := by
    cases hc : StateCode.sampling s.st with
    | false => simpa [h.ptZero hc] using ptLimit_pos s.cfg s.st
    | true =>
      obtain ⟨p, hp⟩ := (sampling_eq_true_iff_exists_phase _).1 hc
      simpa [hp] using h.ptBound p hp
  bit := by
    have hstart := h.bitStart
    have hstream := h.bitStream
    have hmax := h.bitMax
    cases hst : s.st <;> simp_all [bitLimit]

theorem Inv.published {s : State} (h : Inv s) : Published s :=
  { h with }

/-- The invariants from their parts: ticks only, bounded counters, an unoverflowed `shreg`, and the
published registers. -/
theorem inv_of_parts {s : State} (hin : s.inputs.all Stimulus.isTick = true) (hr : InRange s)
    (hsh : s.shreg.toNat < 2 ^ s.bit_cnt.toNat) (hp : Published s) : Inv s where
  ticksOnly := hin
  stUsed := hr.stUsed
  dlyZero hl hh := by
    refine eq_zero_of_toNat_lt_one (hr.dly.trans_le ?_)
    cases hst : s.st <;> simp_all [dlyLimit]
  dlyLow hst := by simpa [hst, dlyLimit] using hr.dly
  dlyHigh hst := by simpa [hst, dlyLimit] using hr.dly
  ptZero hc := eq_zero_of_toNat_lt_one (ptLimit_of_not_sampling s.cfg hc ▸ hr.pt)
  ptBound p hst := by simpa [hst] using hr.pt
  bitMax := hr.bit.trans (by cases s.st <;> decide)
  bitStart hst := by
    refine eq_zero_of_toNat_lt_one (Nat.lt_succ_of_le (hr.bit.trans ?_))
    rcases hst with hst | hst | hst | hst <;> simp [hst, bitLimit]
  bitStream hst := by
    refine hr.bit.trans ?_
    rcases hst with hst | hst <;> simp [hst, bitLimit]
  shregBits := hsh
  __ := hp

/-- A tick without reset keeps the invariants. -/
theorem TickCase.keeps_inv {s u : State} {w : InputWord} (hc : TickCase s w u) (h : Inv s) :
    Inv u :=
  inv_of_parts (hc.keeps_cfg_inputs.2 ▸ h.ticksOnly) (hc.keeps_inRange h.inRange)
    (hc.keeps_shreg_lt h.inRange h.shregBits) (hc.keeps_published h.inRange h.published)

/-- The reset state meets the invariants under every configuration, with any ticks to come. -/
theorem inv_reset (cfg : Config) {inputs : List Stimulus} (n : Nat)
    (hin : inputs.all Stimulus.isTick = true) :
    Inv { State.reset with cfg := cfg, inputs := inputs, tick := n } :=
  inv_of_parts hin ⟨nofun, dlyLimit_pos _ _, ptLimit_pos _ _, Nat.zero_le 40⟩ Nat.one_pos
    (by constructor <;> simp [State.reset])

/-- Using up a stimulus keeps the invariants. -/
theorem Inv.advance {s : State} (h : Inv s) : Inv s.advance := by
  have hin := h.ticksOnly
  unfold State.advance
  split
  all_goals exact { h with ticksOnly := by simp_all }

/-- A step from a state that meets the invariants is a reset tick, or one of `TickCase`. -/
theorem Inv.step_cases {s t : State} (h : Inv s) (hs : step s = .next t) :
    ∃ w, s.present = .tick w ∧
      ((w.rst = true ∧ t = ({ State.reset with
          cfg := s.cfg, inputs := s.inputs, tick := s.tick } : State).advance) ∨
        (w.rst = false ∧ ∃ u, t = u.advance ∧ TickCase s w u)) := by
  obtain ⟨w, hp⟩ := present_tick_of_ticksOnly h.ticksOnly
  refine ⟨w, hp, ?_⟩
  cases hr : w.rst with
  | true =>
    rw [step_reset hp hr] at hs
    cases hs
    exact .inl ⟨rfl, rfl⟩
  | false => exact .inr ⟨rfl, tick_cases hp hr hs⟩

/-- Every step keeps the invariants. -/
theorem Inv.after_step {s t : State} (h : Inv s) (hs : step s = .next t) : Inv t := by
  obtain ⟨w, -, ⟨-, rfl⟩ | ⟨-, u, rfl, hc⟩⟩ := h.step_cases hs
  · exact (inv_reset s.cfg s.tick h.ticksOnly).advance
  · exact (hc.keeps_inv h).advance

/-! ## The bits a transaction has received (R40 item 5) -/

@[simp] theorem bitsValue_nil : bitsValue [] = 0 := rfl

/-- One more bit doubles the number and adds the bit. -/
@[simp] theorem bitsValue_append_singleton (bits : List Bool) (b : Bool) :
    bitsValue (bits ++ [b]) = 2 * bitsValue bits + b.toNat := by
  simp [bitsValue]

/-- R40 item 5: `bit_cnt` counts the bits received and `shreg` is the number they make. -/
def Assembled (s : State) (bits : List Bool) : Prop :=
  bits.length = s.bit_cnt.toNat ∧ s.shreg.toNat = bitsValue bits

theorem receivedAfter_reset {s : State} {w : InputWord} (bits : List Bool)
    (hp : s.present = .tick w) (hr : w.rst = true) : receivedAfter s bits = [] := by
  simp [receivedAfter, hp, hr]

theorem receivedAfter_tick {s : State} {w : InputWord} (bits : List Bool)
    (hp : s.present = .tick w) (hr : w.rst = false) :
    receivedAfter s bits =
      if s.st = .idle ∧ w.start = true then []
      else if s.st = .bitHigh ∧ w.line_in = .low then
        bits ++ [classify s.cfg (s.pt_cnt.toNat + 1)]
      else bits := by
  simp [receivedAfter, hp, hr, classify]

/-- A tick without reset assembles exactly the bits that the transaction receives in it. -/
theorem TickCase.keeps_assembled {s u : State} {w : InputWord} {bits : List Bool}
    (hc : TickCase s w u) (h : Inv s) (hp : s.present = .tick w) (hr : w.rst = false)
    (ha : Assembled s bits) : Assembled u (receivedAfter s bits) := by
  obtain ⟨hlen, hval⟩ := ha
  rw [receivedAfter_tick bits hp hr]
  rcases hc.assembly with ⟨hst, hw, hb, hs⟩ | ⟨hst, hl, hb, hs⟩ | ⟨hread, hbit, hb, hs⟩
  · rw [if_pos ⟨hst, hw⟩]
    exact ⟨by simp [hb], by simp [hs]⟩
  · rw [if_neg (by simp [hst]), if_pos ⟨hst, hl⟩]
    constructor
    · rw [hb, (h.inRange.bit_cnt_succ hst).2, List.length_append, hlen, List.length_singleton]
    · rw [hs, h.inRange.shreg_shiftIn hst h.shregBits, hval, bitsValue_append_singleton]
  · rw [if_neg hread, if_neg hbit]
    exact ⟨hb ▸ hlen, hs ▸ hval⟩

theorem assembled_advance {s : State} {bits : List Bool} (h : Assembled s bits) :
    Assembled s.advance bits := by
  simpa [Assembled] using h

/-- Every step assembles the bits that the transaction receives in it. -/
theorem Inv.step_assembled {s t : State} {bits : List Bool} (h : Inv s) (ha : Assembled s bits)
    (hs : step s = .next t) : Assembled t (receivedAfter s bits) := by
  obtain ⟨w, hp, ⟨hr, rfl⟩ | ⟨hr, u, rfl, hc⟩⟩ := h.step_cases hs
  · rw [receivedAfter_reset bits hp hr]
    exact assembled_advance ⟨rfl, rfl⟩
  · exact assembled_advance (hc.keeps_assembled h hp hr ha)

/-- Every reachable state meets the invariants, and has assembled the bits received. -/
theorem Reachable.inv_assembled {s : State} {bits : List Bool} (h : Reachable s bits) :
    Inv s ∧ Assembled s bits := by
  induction h with
  | reset cfg ws n => exact ⟨inv_reset cfg n (by simp [Stimulus.isTick]), rfl, rfl⟩
  | step s t bits _ hs ih =>
    obtain ⟨hinv, ha⟩ := ih
    exact ⟨hinv.after_step hs, hinv.step_assembled ha hs⟩

/-- Settles O45: the invariants of R40 hold along every run, and with them `bit_cnt` and `shreg` hold
the bits received. -/
theorem reachableStatesMeetTheSevenItems : Obligations.ReachableStatesMeetTheSevenItems := by
  intro s bits hreach
  obtain ⟨h, hlen, hval⟩ := hreach.inv_assembled
  have ptZero (hno : ∀ p : Phase, s.st ≠ p.state) : s.pt_cnt = 0 :=
    h.ptZero (Bool.eq_false_iff.2 fun hc =>
      let ⟨p, hp⟩ := (sampling_eq_true_iff_exists_phase _).1 hc
      hno p hp)
  exact ⟨h.stUsed, h.dlyZero, h.dlyLow, h.dlyHigh, ptZero, h.ptBound, h.bitMax, h.bitStart,
    h.bitStream, hlen, hval, h.doneIdle, h.idleFrame, h.idleTimeout, h.idleNone⟩

/-! ## Completions -/

section
variable {s t : State} {w : InputWord}

/-- What a tick publishes: the reset values, nothing, a timeout, or a full frame (R27 to R29). -/
theorem tick_publishes (hp : s.present = .tick w) (hs : step s = .next t) :
    (w.rst = true ∧ t.done_q = false ∧ t.outcome_q = .none ∧ t.phase_q = .hsLow ∧
      t.frame_q = 0) ∨
    (w.rst = false ∧ t.done_q = false ∧ ¬(StateCode.sampling s.st = true ∧ t.st = .idle) ∧
      t.outcome_q = s.outcome_q ∧ t.phase_q = s.phase_q ∧ t.frame_q = s.frame_q) ∨
    (w.rst = false ∧ t.done_q = true ∧ StateCode.sampling s.st = true ∧ t.st = .idle ∧
      ((t.outcome_q = .timeout ∧ t.frame_q = s.frame_q) ∨
       ((t.outcome_q = .ok ∨ t.outcome_q = .checksum) ∧ t.phase_q = s.phase_q ∧
         t.bit_cnt = 40))) := by
  cases hr : w.rst with
  | true =>
    rw [step_reset hp hr] at hs
    cases hs
    exact .inl (by simp [State.reset])
  | false =>
    obtain ⟨u, rfl, hc⟩ := tick_cases hp hr hs
    rcases hc.publishes with ⟨hd, ho, hph, hf, hidle⟩ | ⟨hd, hi, hst, ho, hf, -⟩ |
      ⟨hd, hi, hst, ho, hph, hb, -⟩
    · have hno : ¬(StateCode.sampling s.st = true ∧ u.st = .idle) := by
        rintro ⟨hsamp, hi⟩
        rcases (hidle hi).1 with hst | hst <;> simp [hst, StateCode.sampling] at hsamp
      exact .inr (.inl (by simp [hd, ho, hph, hf, hno]))
    · exact .inr (.inr (by simp [hd, hi, hst, ho, hf]))
    · have hframe := (outcome_of_frame ho).imp And.left And.left
      exact .inr (.inr (by simp [hd, hi, hst, StateCode.sampling, hframe, hph, hb]))

end

/-- Settles O40: of a tick's three ways only the completion leaves a pulse-timer state for IDLE. -/
theorem doneMarksExactlyTheCompletions : Obligations.DoneMarksExactlyTheCompletions := by
  intro s t w hp hs
  rw [← sampling_eq_true_iff]
  rcases tick_publishes hp hs with ⟨hr, hd, -⟩ | ⟨hr, hd, hno, -⟩ | ⟨hr, hd, hsamp, hi, -⟩
  · simp [hd, hr]
  · simpa [hd, hr] using hno
  · simp [hd, hr, hsamp, hi]

/-- Settles O42: a tick resets the published registers, keeps them, or completes; a timeout keeps the
frame, and a full frame keeps the phase. -/
theorem publishedRegistersChangeOnlyAtCompletions :
    Obligations.PublishedRegistersChangeOnlyAtCompletions := by
  intro s t w hp hs
  rcases tick_publishes hp hs with ⟨hr, -, ho, hph, hf⟩ | ⟨hr, -, -, ho, hph, hf⟩ |
    ⟨hr, hd, -, -, ⟨ho, hf⟩ | ⟨ho, hph, hb⟩⟩
  · simp [hr, ho, hph, hf]
  · simp [hr, ho, hph, hf]
  · simp [hr, hd, ho, hf]
  · simp [hr, hd, ho, hph, hb]

/-! ## States that ignore the line (R38) -/

/-- A scheduled tick runs the command that R67 gives it. -/
theorem step_scheduled_tick (s : State) (w : InputWord) (rest : List Stimulus) :
    step { s with inputs := .tick w :: rest } =
      advanced (exec (if w.rst then .reset
        else if w.start then decodeStart s.st w.line_in else decodeState s.st w.line_in)
        { s with inputs := .tick w :: rest }) :=
  step_tick rfl

/-- The state operations outside the pulse-timer states do not look at the tick's word, which is used
up after them. -/
theorem advanced_exec_decodeState_ignores_line {s : State} (w v : InputWord) (rest : List Stimulus)
    (h : StateCode.sampling s.st = false) :
    advanced (exec (decodeState s.st w.line_in) { s with inputs := .tick w :: rest }) =
      advanced (exec (decodeState s.st v.line_in) { s with inputs := .tick v :: rest }) := by
  cases hst : s.st with
  | idle | unused => rfl
  | startLow =>
    by_cases hd : s.dly_cnt.toNat = s.cfg.tStartLow - 1 <;>
      simp [decodeState, exec, execStateStartLow, hd, advanced, State.advance, goTo, stay]
  | startHigh =>
    by_cases hd : s.dly_cnt.toNat = s.cfg.tStartHigh - 1 <;>
      simp [decodeState, exec, execStateStartHigh, hd, advanced, State.advance, goTo, stay]
  | hsLow | hsHigh | bitLow | bitHigh => simp [hst, StateCode.sampling] at h

/-- Settles O38: RESET, READ and NOP do not look at the line, and nor do the state operations outside
the pulse-timer states. -/
theorem lineIsIgnoredOutsidePulseStates : Obligations.LineIsIgnoredOutsidePulseStates := by
  intro s w l rest hHsLow hHsHigh hBitLow hBitHigh
  have hsamp : StateCode.sampling s.st = false := by
    simp [Bool.eq_false_iff, Ne, sampling_eq_true_iff, *]
  rw [step_scheduled_tick, step_scheduled_tick]
  obtain ⟨rst, start, line⟩ := w
  have hstate :=
    advanced_exec_decodeState_ignores_line ⟨rst, start, line⟩ ⟨rst, start, l⟩ rest hsamp
  cases rst with
  | true => rfl
  | false =>
    cases start with
    | false => exact hstate
    | true =>
      by_cases hidle : s.st = .idle
      · simp only [hidle]
        rfl
      · have hstart (v : InputWord) :=
          exec_decodeStart { s with inputs := .tick v :: rest } v.line_in hidle
        exact (congrArg advanced (hstart ⟨false, true, line⟩)).trans
          (hstate.trans (congrArg advanced (hstart ⟨false, true, l⟩)).symm)

/-! ## Outputs (R32 to R35) -/

theorem line_oe_eq_true_iff (s : State) :
    s.line_oe = true ↔ s.st = .startLow ∨ s.st = .startHigh := by
  unfold State.line_oe
  cases s.st <;> simp

theorem line_out_eq_high_iff (s : State) : s.line_out = .high ↔ s.st = .startHigh := by
  unfold State.line_out
  split <;> simp [*]

theorem busy_eq_true_iff (s : State) : s.busy = true ↔ s.st ≠ .idle := decide_eq_true_iff

/-- Settles O27: the codes and the copied registers are the definitions; the three decoded ports are
the lemmas above. -/
theorem outputsFollowTheRegisters : Obligations.OutputsFollowTheRegisters :=
  ⟨rfl, rfl, rfl, rfl, fun s => ⟨line_oe_eq_true_iff s, line_out_eq_high_iff s,
    busy_eq_true_iff s, rfl, rfl, rfl, rfl, rfl, rfl⟩⟩

end Sys2Proof.Machine
end

