-- ==== Sys2Proof/Proofs/Memory.lean ====
section
/-! PROOF. How the bits of a frame are put together (20_memory.md R51): where a bit shifted into the
assembly register stands, in the register and in the bytes of the frame. -/

namespace Sys2Proof.Machine

/-- Bit `i` of byte `j` in the register: byte 0 is the most significant (R51). -/
theorem frameByte_getLsbD (f : Frame) (j : Nat) {i : Nat} (hi : i < 8) :
    (frameByte f j).getLsbD i = f.getLsbD (32 - 8 * j + i) := by
  simp [frameByte, hi]

/-- After bits are shifted in, the register counts them back from the last one received; above them
stand the low bits it held before. -/
theorem foldl_shiftIn_getLsbD (f : Frame) (bits : List Bool) {i : Nat} (hi : i < 40) :
    (bits.foldl shiftIn f).getLsbD i = bits.reverse[i]?.getD (f.getLsbD (i - bits.length)) := by
  induction bits using List.reverseRecOn generalizing i with
  | nil => simp
  | append_singleton bits b ih =>
    rw [List.foldl_concat, shiftIn_getLsbD, List.reverse_concat]
    cases i with
    | zero => simp
    | succ i => simp [hi, ih (Nat.lt_of_succ_lt hi)]

/-- R51 on the register: the `k`-th of forty bits received stands in bit `39 - k`. -/
theorem foldl_shiftIn_getLsbD_sub (f : Frame) {bits : List Bool} {k : Nat}
    (hlen : bits.length = 40) (hk : k < 40) :
    some ((bits.foldl shiftIn f).getLsbD (39 - k)) = bits[k]? := by
  have hidx : bits.length - 1 - (39 - k) = k := by omega
  rw [foldl_shiftIn_getLsbD f bits (by omega), List.getElem?_reverse (by omega), hidx,
    List.getElem?_eq_getElem (by omega), Option.getD_some]

/-- R51 on the bytes: bit `7 - (k mod 8)` of byte `k / 8` is register bit `39 - k`. -/
theorem frameByte_div_getLsbD (f : Frame) {k : Nat} (hk : k < 40) :
    (frameByte f (k / 8)).getLsbD (7 - k % 8) = f.getLsbD (39 - k) := by
  have hidx : 32 - 8 * (k / 8) + (7 - k % 8) = 39 - k := by omega
  rw [frameByte_getLsbD f _ (by omega), hidx]

/-- Settles O19: the `k`-th bit's place in the register, and that place read as a byte's bit; the
slices are the definitions, and the five bytes are computed. -/
theorem bitsAreAssembledMostSignificantFirst :
    Obligations.BitsAreAssembledMostSignificantFirst := by
  refine ⟨fun f bits k hlen hk => ⟨foldl_shiftIn_getLsbD_sub f hlen hk, ?_⟩,
    fun _ _ _ => rfl, fun _ _ => rfl, by decide⟩
  rw [frameByte_div_getLsbD _ hk]
  exact foldl_shiftIn_getLsbD_sub f hlen hk

end Sys2Proof.Machine
end

