-- ==== Sys2Proof/Proofs/Encoding.lean ====
section
/-! PROOF. The words of 30_encoding.md: the PT word of each pulse-timer state (R71, R72), the fields of
STATUS (R74) and the command that a tick's word is (R67). -/

namespace Sys2Proof

/-! ## The PT words (R71, R72) -/

/-- R72: `T = 0` is not encodable in a well-formed configuration. -/
theorem timeout_ne_zero (cfg : Config) (p : Phase) : p.timeout cfg ≠ 0 := fun h => by
  have hpos := (Machine.timeoutTicks_bounds cfg p).1
  rw [← Machine.timeout_toNat, h] at hpos
  exact absurd hpos (by decide)

/-- Settles O13: the words, codes and states are the step table read row by row; that `T` is carried
whole and is not 0 comes from the configuration's ranges. -/
theorem stepTableGivesThePtWords : Obligations.StepTableGivesThePtWords :=
  ⟨fun cfg => ⟨rfl, rfl, rfl, rfl, fun p => ⟨Machine.timeout_toNat cfg p, timeout_ne_zero cfg p⟩⟩,
    rfl, rfl, by decide, by decide, by decide, by decide⟩

/-! ## STATUS (R74) -/

namespace Machine

/-- Where the fields stand in the packed word, whatever the outputs are.  A slice is read by dropping the
fields below it; its own field is then the last one. -/
theorem Outputs.status_fields (o : Outputs) :
    o.status.getLsbD 15 = o.busy ∧ o.status.getLsbD 14 = o.done ∧
    o.status.extractLsb' 12 2 = o.outcome ∧ o.status.extractLsb' 10 2 = o.err_phase ∧
    o.status.extractLsb' 4 6 = o.bit_count ∧ o.status.getLsbD 3 = false ∧
    o.status.extractLsb' 0 3 = o.fsm_state := by
  unfold Outputs.status
  refine ⟨?busy, ?done, ?outcome, ?err_phase, ?bit_count, ?reserved, ?fsm_state⟩
  case busy | done | reserved =>
    repeat rw [BitVec.getLsbD_append]
    simp
  case outcome =>
    iterate 4 rw [BitVec.extractLsb'_append_eq_of_le (by decide)]
    exact BitVec.extractLsb'_append_eq_right
  case err_phase =>
    iterate 3 rw [BitVec.extractLsb'_append_eq_of_le (by decide)]
    exact BitVec.extractLsb'_append_eq_right
  case bit_count =>
    iterate 2 rw [BitVec.extractLsb'_append_eq_of_le (by decide)]
    exact BitVec.extractLsb'_append_eq_right
  case fsm_state => exact BitVec.extractLsb'_append_eq_right

/-- Settles O28: STATUS is the packed word of the state's outputs. -/
theorem statusPacksTheOutputs : Obligations.StatusPacksTheOutputs := fun s =>
  s.outputs.status_fields

end Machine

/-! ## The command of a tick (R67) -/

/-- With `start` set, a state other than IDLE reads READ_BUSY with that state as its operand. -/
@[simp] theorem decodeStart_busyState (b : BusyState) (line : Level) :
    decodeStart b.state line = .readBusy b line := by
  cases b <;> rfl

/-- Without `start`, a state other than IDLE reads its own operation. -/
@[simp] theorem decodeState_busyState (b : BusyState) (line : Level) :
    decodeState b.state line = Machine.stateOperation b line := by
  cases b <;> rfl

/-- Settles O30: each row of the table picks one branch of the decoder. -/
theorem commandPriority : Obligations.CommandPriority := by
  intro st w
  rw [decode_cmd6Word]
  refine ⟨fun hrst => ?_, fun hrst hstart hidle => ?_, fun hrst hstart hidle => ?_,
    fun b hst hrst hstart => ?_, fun b hst hrst hstart => ?_⟩
  · simp [hrst]
  · simp [hrst, hstart, hidle, decodeStart]
  · simp [hrst, hstart, hidle, decodeState]
  · simp [hrst, hstart, hst]
  · simp [hrst, hstart, hst]

end Sys2Proof
end

