-- ==== Sys2Proof/Proofs/PulseTimer.lean ====
section
/-! PROOF. The pulse timer (40_pulse_timer.md): one evaluation (R91, R92, R97), what the state that
issues it does with the answer, and a whole call (R95). -/

namespace Sys2Proof.Machine

/-! ## One evaluation (R91) -/

section
variable {l x : Level} {t c : BitVec 8}

theorem ptEval_of_ne (h : x ≠ l) : ptEval l t c x = (.done (c.toNat + 1), 0) := if_pos h

theorem ptEval_of_timeout_le (h : x = l) (ht : t.toNat ≤ c.toNat + 1) :
    ptEval l t c x = (.timeout, 0) := by
  rw [ptEval, if_neg (not_not_intro h), if_pos ht]

theorem ptEval_of_lt_timeout (h : x = l) (ht : c.toNat + 1 < t.toNat) :
    ptEval l t c x = (.busy, c + 1) := by
  rw [ptEval, if_neg (not_not_intro h), if_neg (Nat.not_le.2 ht)]

/-- A count below a timeout has room for one more. -/
theorem toNat_add_one_of_lt_timeout (ht : c.toNat + 1 < t.toNat) : (c + 1).toNat = c.toNat + 1 :=
  BitVec.toNat_add_of_lt (ht.trans t.isLt)

end

/-- Settles O20: the three branches of the definition; the count does not wrap because it stays below
an 8-bit timeout. -/
theorem pulseTimerEvaluation : Obligations.PulseTimerEvaluation := fun _ _ _ _ =>
  ⟨ptEval_of_ne, ptEval_of_timeout_le, fun h ht =>
    ⟨ptEval_of_lt_timeout h ht, toNat_add_one_of_lt_timeout ht⟩⟩

/-- Settles O21: only a sample away from the target answers DONE, with one more than the count. -/
theorem pulseTimerDoneIsInRange : Obligations.PulseTimerDoneIsInRange := by
  intro target timeout count sample e next hlt h
  rcases ptEval_cases target timeout count sample with ⟨-, he⟩ | ⟨-, -, he⟩ | ⟨-, -, he⟩
  · cases he.symm.trans h
    exact ⟨Nat.le_add_left 1 _, hlt, rfl⟩
  · cases he.symm.trans h
  · cases he.symm.trans h

/-! ## The state that issues the evaluation (R115 to R118) -/

/-- The end of a call with DONE(`e`): the next call begins, or a bit is taken. -/
def endCall (p : Phase) (e : Nat) : State → State :=
  match p with
  | .hsLow => goTo .hsHigh
  | .hsHigh => goTo .bitLow
  | .bitLow => goTo .bitHigh
  | .bitHigh => takeBit e

/-- What a pulse-timer state does with the pulse timer's answer. -/
def actOn (p : Phase) : PtResult → State → State
  | .busy => stay
  | .done e => endCall p e
  | .timeout => raiseTimeout p

/-- The four state operations are one: evaluate the pulse timer, act on its answer. -/
theorem exec_decodeState_phase (p : Phase) (x : Level) (s : State) :
    exec (decodeState p.state x) s =
      .next (actOn p (measurePhase p x s).1 (measurePhase p x s).2) := by
  cases p
  all_goals
    simp only [Phase.state, decodeState, exec, execStateHsLow, execStateHsHigh, execStateBitLow,
      execStateBitHigh]
    split <;> simp [*, actOn, endCall]

/-- A call that ends with DONE leaves its state, with the count it was given and without a timeout. -/
theorem endCall_leaves (p : Phase) (e : Nat) {s : State} (hc : s.pt_cnt = 0) :
    (endCall p e s).pt_cnt = 0 ∧ (endCall p e s).st ≠ p.state ∧
      ¬((endCall p e s).done_q = true ∧ (endCall p e s).outcome_q = .timeout) := by
  cases p with
  | hsLow | hsHigh | bitLow => simp [endCall, Phase.state, hc]
  | bitHigh =>
    rcases takeBit_cases e s with ⟨-, he⟩ | ⟨-, he⟩
    · simp only [endCall, he]
      cases hv : ckValid (shiftIn s.shreg (classify s.cfg e)) <;> simp [Phase.state, hv]
    · simp [endCall, he, Phase.state, hc]

section
variable {p : Phase} {s : State} {w : InputWord} {rest : List Stimulus}

/-- A tick without reset in a pulse-timer state, `start` set or not (R111). -/
theorem step_phase (hst : s.st = p.state) (hin : s.inputs = .tick w :: rest) (hr : w.rst = false) :
    step s = .next
      (actOn p (measurePhase p w.line_in s).1 (measurePhase p w.line_in s).2).advance := by
  have hexec : exec (if w.start then decodeStart s.st w.line_in else decodeState s.st w.line_in) s =
      exec (decodeState p.state w.line_in) s := by
    split
    · rw [exec_decodeStart s _ (hst ▸ phase_state_ne_idle p), hst]
    · rw [hst]
  rw [step_tick (present_cons s _ _ hin), hr, if_neg Bool.false_ne_true, hexec,
    exec_decodeState_phase, advanced]

/-- A sample at the target before the timeout counts. -/
theorem step_phase_waits (hst : s.st = p.state) (hin : s.inputs = .tick w :: rest)
    (hr : w.rst = false) (hl : w.line_in = p.target)
    (ht : s.pt_cnt.toNat + 1 < p.timeoutTicks s.cfg) :
    step s = .next { s with pt_cnt := s.pt_cnt + 1, done_q := false, inputs := rest,
                            tick := s.tick + 1 } := by
  rw [step_phase hst hin hr, measurePhase, measure, ptEval_of_lt_timeout hl (by rwa [timeout_toNat])]
  exact congrArg _ (advance_scheduled _ w rest hin)

/-- A sample at the target at the timeout raises `TimeoutError(p)` (R164). -/
theorem step_phase_timesOut (hst : s.st = p.state) (hin : s.inputs = .tick w :: rest)
    (hr : w.rst = false) (hl : w.line_in = p.target)
    (ht : p.timeoutTicks s.cfg ≤ s.pt_cnt.toNat + 1) :
    step s = .next { s with outcome_q := .timeout, phase_q := p, st := .idle, done_q := true,
                            pt_cnt := 0, inputs := rest, tick := s.tick + 1 } := by
  rw [step_phase hst hin hr, measurePhase, measure, ptEval_of_timeout_le hl (by rwa [timeout_toNat])]
  exact congrArg _ (advance_scheduled _ w rest hin)

/-- A sample away from the target ends the call with DONE, even at the timeout (R92). -/
theorem step_phase_done (hst : s.st = p.state) (hin : s.inputs = .tick w :: rest)
    (hr : w.rst = false) (hl : w.line_in ≠ p.target) :
    step s = .next (endCall p (s.pt_cnt.toNat + 1) { s with pt_cnt := 0 }).advance := by
  rw [step_phase hst hin hr, measurePhase, measure, ptEval_of_ne hl]
  rfl

/-- A sample away from the target leaves the state, with the count cleared and without a timeout. -/
theorem step_phase_leaves (hst : s.st = p.state) (hin : s.inputs = .tick w :: rest)
    (hr : w.rst = false) (hl : w.line_in ≠ p.target) :
    ∃ t, step s = .next t ∧ t.pt_cnt = 0 ∧ t.st ≠ p.state ∧
      ¬(t.done_q = true ∧ t.outcome_q = .timeout) :=
  ⟨_, step_phase_done hst hin hr hl,
    by simpa using endCall_leaves p (s.pt_cnt.toNat + 1) (s := { s with pt_cnt := 0 }) rfl⟩

end

/-! ## A whole call (R95) -/

/-- A call that began in `s`, after `n` samples at the target, with `rest` still to come. -/
def waited (s : State) (n : Nat) (rest : List Stimulus) : State :=
  { s with pt_cnt := BitVec.ofNat 8 n, done_q := if n = 0 then s.done_q else false,
           inputs := rest, tick := s.tick + n }

theorem waited_zero {s : State} (hc : s.pt_cnt = 0) : waited s 0 s.inputs = s := by
  cases s
  cases hc
  rfl

/-- The count is exact below the timeout, which has eight bits (R8). -/
theorem waited_pt_cnt_toNat {p : Phase} {s : State} {n : Nat} (rest : List Stimulus)
    (hn : n < p.timeoutTicks s.cfg) : (waited s n rest).pt_cnt.toNat = n :=
  Nat.mod_eq_of_lt (hn.trans_le ((timeoutTicks_bounds s.cfg p).2.trans (Nat.le_succ 255)))

/-- Words at the end of a schedule's list stand before the rest. -/
theorem scheduled_append_singleton (ws : List InputWord) (w : InputWord) (rest : List Stimulus) :
    scheduled (ws ++ [w]) rest = scheduled ws (.tick w :: rest) := by
  simp [scheduled]

/-- A run of `n + 1` steps is a run of `n` and one step more. -/
theorem runSteps_succ_of_step {n : Nat} {s u t : State} (hrun : runSteps n s = .next u)
    (hstep : step u = .next t) : runSteps (n + 1) s = .next t := by
  rw [runSteps_add hrun, runSteps_succ 0 hstep, runSteps_zero]

section
variable {p : Phase} {s : State} {ws : List InputWord} {rest : List Stimulus}

/-- One sample more at the target, below the timeout. -/
theorem step_waited {n : Nat} {w : InputWord} (hst : s.st = p.state) (hr : w.rst = false)
    (hl : w.line_in = p.target) (hn : n + 1 < p.timeoutTicks s.cfg) :
    step (waited s n (.tick w :: rest)) = .next (waited s (n + 1) rest) := by
  have hcount := waited_pt_cnt_toNat (s := s) (.tick w :: rest) (Nat.lt_of_succ_lt hn)
  rw [step_phase_waits (s := waited s n (.tick w :: rest)) hst rfl hr hl (by rwa [hcount])]
  simp [waited, BitVec.ofNat_add, Nat.add_assoc]

/-- Fewer samples at the target than the timeout leave the call waiting. -/
theorem runSteps_waited (hst : s.st = p.state) (hc : s.pt_cnt = 0)
    (hin : s.inputs = scheduled ws rest) (hr : ∀ w ∈ ws, w.rst = false)
    (hl : ∀ w ∈ ws, w.line_in = p.target) (hlen : ws.length < p.timeoutTicks s.cfg) :
    runSteps ws.length s = .next (waited s ws.length rest) := by
  induction ws using List.reverseRecOn generalizing rest with
  | nil =>
    have hrest : s.inputs = rest := hin
    rw [List.length_nil, runSteps_zero, ← hrest, waited_zero hc]
  | append_singleton ws w ih =>
    rw [scheduled_append_singleton] at hin
    simp only [List.forall_mem_append, List.forall_mem_singleton, List.length_append,
      List.length_singleton] at hr hl hlen ⊢
    exact runSteps_succ_of_step (ih hin hr.1 hl.1 (Nat.lt_of_succ_lt hlen))
      (step_waited hst hr.2 hl.2 hlen)

/-- As many samples at the target as the timeout end the call in `TimeoutError(p)`. -/
theorem runSteps_timesOut (hst : s.st = p.state) (hc : s.pt_cnt = 0)
    (hin : s.inputs = scheduled ws rest) (hr : ∀ w ∈ ws, w.rst = false)
    (hl : ∀ w ∈ ws, w.line_in = p.target) (hlen : ws.length = p.timeoutTicks s.cfg) :
    runSteps ws.length s = .next
      { s with outcome_q := .timeout, phase_q := p, st := .idle, done_q := true, pt_cnt := 0,
               inputs := rest, tick := s.tick + ws.length } := by
  have hpos := (timeoutTicks_bounds s.cfg p).1
  rcases List.eq_nil_or_concat' ws with rfl | ⟨ws, w, rfl⟩
  · exact absurd hlen (Nat.ne_of_lt hpos)
  rw [scheduled_append_singleton] at hin
  simp only [List.forall_mem_append, List.forall_mem_singleton, List.length_append,
    List.length_singleton] at hr hl hlen ⊢
  have hlt : ws.length < p.timeoutTicks s.cfg := hlen ▸ Nat.lt_succ_self _
  have hcount := waited_pt_cnt_toNat (.tick w :: rest) hlt
  exact runSteps_succ_of_step (runSteps_waited hst hc hin hr.1 hl.1 hlt)
    (step_phase_timesOut (p := p) hst rfl hr.2 hl.2 (by rw [hcount]; exact hlen.ge))

end

/-- Settles O23: samples at the target before the timeout only count; the sample after them ends the call
with DONE when it is away from the target, and is the timeout when it is the `T`-th at the target. -/
theorem pulseTimerCallClosedForm : Obligations.PulseTimerCallClosedForm := by
  intro p s ws rest hst hc hin hr hl
  refine ⟨fun hlt => ?_, fun hlt w rest' hrest hwr hwl => ?_, runSteps_timesOut hst hc hin hr hl⟩
  · simpa [waited] using runSteps_waited hst hc hin hr hl hlt
  · subst hrest
    obtain ⟨t, hstep, hleaves⟩ := step_phase_leaves (p := p)
      (s := waited s ws.length (.tick w :: rest')) hst rfl hwr hwl
    have heval : ptEval p.target (p.timeout s.cfg)
        (waited s ws.length (.tick w :: rest')).pt_cnt w.line_in = (.done (ws.length + 1), 0) := by
      rw [ptEval_of_ne hwl, waited_pt_cnt_toNat _ hlt]
    exact ⟨_, t, runSteps_waited hst hc hin hr hl hlt, hstep, heval, hleaves⟩

end Sys2Proof.Machine
end

