-- ==== Sys2Proof/Proofs/FrameDecoder.lean ====
section
/-! PROOF. The frame decoder (41_frame_decoder.md): what each state operation does (R110 to R121,
R124), that a tick is exactly one row of the transition table (R130), and the start sequence (R125). -/

namespace Sys2Proof.Machine

/-! ## The start sequence's states (R113, R114) -/

section
variable {s : State}

theorem exec_startLow_end (h : s.dly_cnt.toNat = s.cfg.tStartLow - 1) :
    exec .stateStartLow s = .next { s with st := .startHigh, dly_cnt := 0, done_q := false } :=
  if_pos h

theorem exec_startLow_counts (h : s.dly_cnt.toNat ≠ s.cfg.tStartLow - 1) :
    exec .stateStartLow s = .next { s with dly_cnt := s.dly_cnt + 1, done_q := false } :=
  if_neg h

theorem exec_startHigh_end (h : s.dly_cnt.toNat = s.cfg.tStartHigh - 1) :
    exec .stateStartHigh s =
      .next { s with st := .hsLow, dly_cnt := 0, pt_cnt := 0, done_q := false } :=
  if_pos h

theorem exec_startHigh_counts (h : s.dly_cnt.toNat ≠ s.cfg.tStartHigh - 1) :
    exec .stateStartHigh s = .next { s with dly_cnt := s.dly_cnt + 1, done_q := false } :=
  if_neg h

theorem line_oe_eq_false_iff : s.line_oe = false ↔ s.st ≠ .startLow ∧ s.st ≠ .startHigh := by
  rw [← Bool.not_eq_true, line_oe_eq_true_iff, not_or]

/-- R32, R33: START_LOW drives the line low. -/
theorem drives_low_of_startLow (h : s.st = .startLow) : s.line_oe = true ∧ s.line_out = .low :=
  ⟨(line_oe_eq_true_iff s).2 (.inl h), if_neg (by simp [h])⟩

/-- R32, R33: START_HIGH drives the line high. -/
theorem drives_high_of_startHigh (h : s.st = .startHigh) :
    s.line_oe = true ∧ s.line_out = .high :=
  ⟨(line_oe_eq_true_iff s).2 (.inr h), (line_out_eq_high_iff s).2 h⟩

end

/-- Settles O10: the two branches of the operation; a count below `T_START_LOW - 1` fits sixteen
bits (R8). -/
theorem startLowCountsItsDelay : Obligations.StartLowCountsItsDelay := fun s =>
  ⟨exec_startLow_end, exec_startLow_counts,
    fun h => BitVec.toNat_add_of_lt (by have := start_bounds s.cfg; simp; omega),
    drives_low_of_startLow⟩

/-- Settles O11: the two branches of the operation; HS_LOW does not drive the line. -/
theorem startHighCountsItsDelay : Obligations.StartHighCountsItsDelay := fun _ =>
  ⟨fun h => ⟨_, exec_startHigh_end h, rfl, rfl⟩, exec_startHigh_counts, drives_high_of_startHigh⟩

/-- Settles O12: the operation is the definition; code 7 drives nothing and is not IDLE. -/
theorem unusedCodeRecoversToIdle : Obligations.UnusedCodeRecoversToIdle := fun s =>
  ⟨rfl, fun h => ⟨line_oe_eq_false_iff.2 (by simp [h]), (busy_eq_true_iff s).2 (by simp [h])⟩⟩

/-! ## The pulse-timer states (R115 to R118) -/

section
variable {p : Phase} {x : Level} {s : State}

/-- A sample at the target before the timeout counts. -/
theorem exec_phase_waits (hx : x = p.target) (ht : s.pt_cnt.toNat + 1 < p.timeoutTicks s.cfg) :
    exec (decodeState p.state x) s = .next { s with pt_cnt := s.pt_cnt + 1, done_q := false } := by
  rw [exec_decodeState_phase, measurePhase, measure,
    ptEval_of_lt_timeout hx (by rwa [timeout_toNat])]
  rfl

/-- A sample at the target at the timeout raises `TimeoutError(p)` (R164). -/
theorem exec_phase_timesOut (hx : x = p.target) (ht : p.timeoutTicks s.cfg ≤ s.pt_cnt.toNat + 1) :
    exec (decodeState p.state x) s = .next (raiseTimeout p { s with pt_cnt := 0 }) := by
  rw [exec_decodeState_phase, measurePhase, measure,
    ptEval_of_timeout_le hx (by rwa [timeout_toNat])]
  rfl

/-- A sample away from the target ends the call with DONE. -/
theorem exec_phase_done (hx : x = p.target.flip) :
    exec (decodeState p.state x) s =
      .next (endCall p (s.pt_cnt.toNat + 1) { s with pt_cnt := 0 }) := by
  rw [exec_decodeState_phase, measurePhase, measure, ptEval_of_ne ((level_ne_iff _ _).2 hx)]
  rfl

end

/-- Settles O14: the call's three answers, with R71's row for HS_LOW. -/
theorem hsLowWaitsForTheLineToFall : Obligations.HsLowWaitsForTheLineToFall := fun _ _ =>
  ⟨exec_phase_done (p := .hsLow), exec_phase_waits (p := .hsLow),
    exec_phase_timesOut (p := .hsLow)⟩

/-- Settles O15: the call's three answers, with R71's row for HS_HIGH. -/
theorem hsHighWaitsForTheLineToRise : Obligations.HsHighWaitsForTheLineToRise := fun _ _ =>
  ⟨exec_phase_done (p := .hsHigh), exec_phase_waits (p := .hsHigh),
    exec_phase_timesOut (p := .hsHigh)⟩

/-- Settles O16: the call's three answers, with R71's row for BIT_LOW. -/
theorem bitLowMeasuresALowPhase : Obligations.BitLowMeasuresALowPhase := fun _ _ =>
  ⟨exec_phase_done (p := .bitLow), exec_phase_waits (p := .bitLow),
    exec_phase_timesOut (p := .bitLow)⟩

/-! ### The end of a high phase (R118 to R121) -/

theorem classify_eq_true_iff (cfg : Config) (e : Nat) :
    classify cfg e = true ↔ cfg.bitThreshold < e :=
  decide_eq_true_iff

theorem classify_eq_false_iff (cfg : Config) (e : Nat) :
    classify cfg e = false ↔ e ≤ cfg.bitThreshold := by
  rw [← Bool.not_eq_true, classify_eq_true_iff, Nat.not_lt]

/-- Settles O18: the definition's comparison, read at the default threshold 40. -/
theorem classificationIsStrict : Obligations.ClassificationIsStrict :=
  ⟨classify_eq_true_iff, fun _ _ h => (classify_eq_false_iff _ _).2 h,
    fun _ h _ => (classify_eq_true_iff _ _).2 h⟩

section
variable {s : State} {e : Nat}

theorem takeBit_of_ne (h : s.bit_cnt ≠ 39) :
    takeBit e s = goTo .bitLow
      { s with shreg := shiftIn s.shreg (classify s.cfg e), bit_cnt := s.bit_cnt + 1 } := by
  rcases takeBit_cases e s with ⟨h39, -⟩ | ⟨-, he⟩
  exacts [absurd h39 h, he]

theorem takeBit_of_eq (h : s.bit_cnt = 39) :
    takeBit e s = finishFrame (shiftIn s.shreg (classify s.cfg e))
      { s with shreg := shiftIn s.shreg (classify s.cfg e), bit_cnt := 40 } := by
  rcases takeBit_cases e s with ⟨-, he⟩ | ⟨hne, -⟩
  exacts [he, absurd h hne]

/-- A low sample on another bit than the 40th assembles the bit. -/
theorem exec_bitHigh_bit (h : s.bit_cnt ≠ 39) :
    exec (.stateBitHigh .low) s = .next
      { s with st := .bitLow, pt_cnt := 0, done_q := false, bit_cnt := s.bit_cnt + 1,
               shreg := shiftIn s.shreg (classify s.cfg (s.pt_cnt.toNat + 1)) } :=
  (exec_phase_done (p := .bitHigh) (x := .low) rfl).trans (congrArg _ (takeBit_of_ne h))

/-- A low sample on the 40th bit assembles it and completes the frame. -/
theorem exec_bitHigh_frame (h : s.bit_cnt = 39) :
    exec (.stateBitHigh .low) s = .next
      (finishFrame (shiftIn s.shreg (classify s.cfg (s.pt_cnt.toNat + 1)))
        { s with pt_cnt := 0, bit_cnt := 40,
                 shreg := shiftIn s.shreg (classify s.cfg (s.pt_cnt.toNat + 1)) }) :=
  (exec_phase_done (p := .bitHigh) (x := .low) rfl).trans (congrArg _ (takeBit_of_eq h))

end

theorem finishFrame_of_valid {f : Frame} (s : State) (h : ckValid f = true) :
    finishFrame f s =
      { s with frame_q := f, outcome_q := .ok, st := .idle, done_q := true, pt_cnt := 0 } := by
  rw [finishFrame, if_pos h]

theorem finishFrame_of_invalid {f : Frame} (s : State) (h : ckValid f = false) :
    finishFrame f s =
      { s with frame_q := f, outcome_q := .checksum, st := .idle, done_q := true,
               pt_cnt := 0 } := by
  rw [finishFrame, if_neg (by simp [h])]

/-- Settles O17: a high sample is the call's own answer; a low one assembles the bit, and on the
40th bit the frame's checksum picks the outcome. -/
theorem bitHighClassifiesAndAssembles : Obligations.BitHighClassifiesAndAssembles := by
  rintro s line f rfl
  refine ⟨exec_phase_waits (p := .bitHigh), exec_phase_timesOut (p := .bitHigh), ?bit, ?ok,
    ?checksum⟩
  case bit =>
    rintro rfl hne
    exact exec_bitHigh_bit hne
  case ok =>
    rintro rfl h39 hv
    exact (exec_bitHigh_frame h39).trans (congrArg _ (finishFrame_of_valid _ hv))
  case checksum =>
    rintro rfl h39 hv
    exact (exec_bitHigh_frame h39).trans (congrArg _ (finishFrame_of_invalid _ hv))

/-! ## A tick without reset is exactly one of `TickCase` -/

section
variable {s t u : State} {w : InputWord}

/-- A tick without reset outside IDLE runs the state operation, `start` set or not (R111). -/
theorem step_eq_stateOperation (hp : s.present = .tick w) (hr : w.rst = false)
    (hst : s.st ≠ .idle) : step s = advanced (exec (decodeState s.st w.line_in) s) := by
  rw [step_tick hp, hr, if_neg Bool.false_ne_true]
  split
  · rw [exec_decodeStart s _ hst]
  · rfl

/-- A tick without reset in IDLE runs READ or NOP, as `start` says (R67). -/
theorem step_of_idle (hp : s.present = .tick w) (hr : w.rst = false) (hst : s.st = .idle) :
    step s = advanced (if w.start then execRead s else execNop s) := by
  rw [step_tick hp, hr, if_neg Bool.false_ne_true, hst]
  cases w.start <;> rfl

/-- `tick_cases` read the other way: what `TickCase` allows is what the tick does. -/
theorem TickCase.step_eq (hc : TickCase s w u) (hp : s.present = .tick w) (hr : w.rst = false) :
    step s = .next u.advance := by
  have busyTick {c : StateCode} (hst : s.st = c) (hc : c ≠ .idle)
      (he : exec (decodeState c w.line_in) s = .next u) : step s = .next u.advance := by
    subst hst
    exact (step_eq_stateOperation hp hr hc).trans (congrArg advanced he)
  cases hc with
  | read hst hw | nop hst hw => rw [step_of_idle hp hr hst, hw]; rfl
  | startLowEnd hst h => exact busyTick hst nofun (exec_startLow_end h)
  | startLowCount hst h => exact busyTick hst nofun (exec_startLow_counts h)
  | startHighEnd hst h => exact busyTick hst nofun (exec_startHigh_end h)
  | startHighCount hst h => exact busyTick hst nofun (exec_startHigh_counts h)
  | busy p hst hl h => exact busyTick hst (phase_state_ne_idle p) (exec_phase_waits hl h)
  | timeout p hst hl h => exact busyTick hst (phase_state_ne_idle p) (exec_phase_timesOut hl h)
  | hsLowDone hst hl => exact busyTick hst nofun (exec_phase_done (p := .hsLow) hl)
  | hsHighDone hst hl => exact busyTick hst nofun (exec_phase_done (p := .hsHigh) hl)
  | bitLowDone hst hl => exact busyTick hst nofun (exec_phase_done (p := .bitLow) hl)
  | bit f hst hl hne hf =>
    subst hf
    exact busyTick hst nofun (hl ▸ exec_bitHigh_bit hne)
  | frame f hst hl h39 hf =>
    subst hf
    exact busyTick hst nofun (hl ▸ exec_bitHigh_frame h39)
  | unused hst => exact busyTick hst nofun rfl

/-- A tick without reset does exactly what `TickCase` allows. -/
theorem step_eq_next_iff_tickCase (hp : s.present = .tick w) (hr : w.rst = false) :
    step s = .next t ↔ ∃ u, TickCase s w u ∧ t = u.advance := by
  constructor
  · intro h
    obtain ⟨u, rfl, hc⟩ := tick_cases hp hr h
    exact ⟨u, hc, rfl⟩
  · rintro ⟨u, hc, rfl⟩
    exact hc.step_eq hp hr

end

/-! ## READ and NOP (R110 to R112) -/

/-- Settles O7: the operation is the definition; the outputs are read off the state it answers. -/
theorem readStartsATransaction : Obligations.ReadStartsATransaction := by
  refine ⟨fun _ => rfl, fun s w hp hr hstart hst =>
    ⟨_, (TickCase.read hst hstart).step_eq hp hr, rfl, ?_⟩⟩
  simp [State.outputs, State.busy, State.line_oe, State.line_out]

/-- Settles O9: the operation is the definition, and the tick is the row NOP. -/
theorem nopInIdleOnlyClearsDone : Obligations.NopInIdleOnlyClearsDone :=
  ⟨fun _ => rfl, fun _ _ hp hr hstart hst => (TickCase.nop hst hstart).step_eq hp hr⟩

/-- READ while busy is the state operation (R111). -/
theorem exec_readBusy (b : BusyState) (line : Level) (s : State) :
    exec (.readBusy b line) s = exec (stateOperation b line) s := by
  cases b <;> rfl

/-- Every state operation goes on. -/
theorem exists_exec_stateOperation_eq_next (b : BusyState) (line : Level) (s : State) :
    ∃ t, exec (stateOperation b line) s = .next t := by
  cases b with
  | startLow =>
    by_cases h : s.dly_cnt.toNat = s.cfg.tStartLow - 1
    exacts [⟨_, exec_startLow_end h⟩, ⟨_, exec_startLow_counts h⟩]
  | startHigh =>
    by_cases h : s.dly_cnt.toNat = s.cfg.tStartHigh - 1
    exacts [⟨_, exec_startHigh_end h⟩, ⟨_, exec_startHigh_counts h⟩]
  | hsLow => exact ⟨_, exec_decodeState_phase .hsLow line s⟩
  | hsHigh => exact ⟨_, exec_decodeState_phase .hsHigh line s⟩
  | bitLow => exact ⟨_, exec_decodeState_phase .bitLow line s⟩
  | bitHigh => exact ⟨_, exec_decodeState_phase .bitHigh line s⟩
  | unused => exact ⟨_, rfl⟩

/-! ### The tick's word in a busy state (R111) -/

section
variable (s : State) (inputs : List Stimulus)

/-- Taking a bit does not look at the schedule. -/
theorem takeBit_inputs (e : Nat) :
    takeBit e { s with inputs := inputs } = { takeBit e s with inputs := inputs } := by
  by_cases h : s.bit_cnt = 39
  · rw [takeBit_of_eq h]
    exact takeBit_of_eq h
  · rw [takeBit_of_ne h]
    exact takeBit_of_ne h

/-- Acting on the pulse timer's answer does not look at the schedule. -/
theorem actOn_inputs (p : Phase) (r : PtResult) :
    actOn p r { s with inputs := inputs } = { actOn p r s with inputs := inputs } := by
  cases r with
  | busy | timeout => rfl
  | done e =>
    cases p with
    | hsLow | hsHigh | bitLow => rfl
    | bitHigh => exact takeBit_inputs s inputs e

/-- The operation of a pulse-timer state does not look at the schedule. -/
theorem exec_decodeState_phase_inputs {p : Phase} (hst : s.st = p.state) (x : Level) :
    exec (decodeState s.st x) { s with inputs := inputs } =
      .next { actOn p (measurePhase p x s).1 (measurePhase p x s).2 with inputs := inputs } := by
  have hexec := exec_decodeState_phase p x { s with inputs := inputs }
  rw [← hst] at hexec
  exact hexec.trans
    (congrArg _ (actOn_inputs (measurePhase p x s).2 inputs p (measurePhase p x s).1))

end

/-- A state operation looks at nothing of the tick's word but the line level. -/
theorem advanced_exec_decodeState_of_line_eq (s : State) {w v : InputWord} (rest : List Stimulus)
    (hl : w.line_in = v.line_in) :
    advanced (exec (decodeState s.st w.line_in) { s with inputs := .tick w :: rest }) =
      advanced (exec (decodeState s.st v.line_in) { s with inputs := .tick v :: rest }) := by
  cases hc : StateCode.sampling s.st with
  | false => exact advanced_exec_decodeState_ignores_line w v rest hc
  | true =>
    obtain ⟨p, hp⟩ := (sampling_eq_true_iff_exists_phase _).1 hc
    rw [hl, exec_decodeState_phase_inputs s _ hp, exec_decodeState_phase_inputs s _ hp]
    rfl

/-- Settles O8: READ_BUSY is the state operation, and with or without `start` the tick is that
operation on the same line level. -/
theorem readWhileBusyIsTheStateOperation : Obligations.ReadWhileBusyIsTheStateOperation := by
  refine ⟨fun b line s => ?_, fun s w rest hst hr => ?_⟩
  · obtain ⟨t, ht⟩ := exists_exec_stateOperation_eq_next b line s
    exact ⟨t, (exec_readBusy b line s).trans ht, ht⟩
  · have busyTick (start : Bool) :=
      step_eq_stateOperation (s := { s with inputs := .tick { w with start := start } :: rest })
        rfl hr hst
    have ignored := advanced_exec_decodeState_of_line_eq s (w := { w with start := true })
      (v := { w with start := false }) rest rfl
    exact (busyTick true).trans (ignored.trans (busyTick false).symm)

/-! ## The ways back to IDLE (R122) -/

/-- Settles O39: without a reset, a tick that completes nothing leads to IDLE from IDLE and code 7
only. -/
theorem busyEndsOnlyByCompletionOrReset : Obligations.BusyEndsOnlyByCompletionOrReset := by
  intro s t w hp hidle hunused hs hti
  cases hr : w.rst with
  | true => exact .inl rfl
  | false =>
    obtain ⟨u, rfl, hc⟩ := tick_cases hp hr hs
    rcases hc.publishes with ⟨-, -, -, -, hback⟩ | ⟨hd, -, hst, ho, -⟩ | ⟨hd, -, hst, ho, -, hb, hf⟩
    · exact absurd (hback (by simpa using hti)).1 (by simp [hidle, hunused])
    · exact .inr (.inr (by simp [hd, ho, hst]))
    · have hframe := (outcome_of_frame ho).imp And.left And.left
      exact .inr (.inl (by simp [hd, hst, hframe, hb, hf]))

/-! ## The transition table (R130) -/

/-- The table's register after a bit is the model's. -/
theorem tableShift_eq_shiftIn (f : Frame) (b : Bool) : tableShift f b = shiftIn f b :=
  BitVec.eq_of_toNat_eq (by rw [shiftIn_toNat, tableShift, BitVec.toNat_ofNat])

/-- A byte of a frame in numbers. -/
theorem frameByte_toNat (f : Frame) (j : Nat) :
    (frameByte f j).toNat = f.toNat / 2 ^ (32 - 8 * j) % 256 := by
  rw [frameByte, BitVec.extractLsb'_toNat, Nat.shiftRight_eq_div_pow]

/-- The table's checksum is the model's. -/
theorem tableValid_iff_ckValid (f : Frame) : tableValid f ↔ ckValid f = true := by
  rw [ckValid, decide_eq_true_iff, ← BitVec.toNat_inj, ckSum_toNat]
  simp only [frameByte_toNat]
  simp [tableValid]

section
variable {s u : State} {w : InputWord}

/-- Where the invariants hold, what a tick can do is a row of the table: `dly_cnt` and `bit_cnt` do
not pass the values at which their rows end. -/
theorem TickCase.tableRow (hc : TickCase s w u) (h : Inv s) : TableRow s w u := by
  cases hc with
  | read hst hw => exact .idleRead s w hst hw
  | nop hst hw =>
    have hrow := TableRow.idleNop s w hst hw
    rwa [← hst] at hrow
  | startLowEnd hst hd => exact .startLowEnd s w hst hd
  | startHighEnd hst hd => exact .startHighEnd s w hst hd
  | startLowCount hst hd => exact .startLowCount s w hst (by have := h.dlyLow hst; omega)
  | startHighCount hst hd => exact .startHighCount s w hst (by have := h.dlyHigh hst; omega)
  | busy p hst hl ht =>
    cases p with
    | hsLow => exact .hsLowBusy s w hst hl ht
    | hsHigh => exact .hsHighBusy s w hst hl ht
    | bitLow => exact .bitLowBusy s w hst hl ht
    | bitHigh => exact .bitHighBusy s w hst hl ht
  | timeout p hst hl ht =>
    cases p with
    | hsLow => exact .hsLowTimeout s w hst hl ht
    | hsHigh => exact .hsHighTimeout s w hst hl ht
    | bitLow => exact .bitLowTimeout s w hst hl ht
    | bitHigh => exact .bitHighTimeout s w hst hl ht
  | hsLowDone hst hl => exact .hsLowDone s w hst hl
  | hsHighDone hst hl => exact .hsHighDone s w hst hl
  | bitLowDone hst hl => exact .bitLowDone s w hst hl
  | bit f hst hl hne hf =>
    have hlt : s.bit_cnt.toNat < 39 :=
      lt_of_le_of_ne (h.bitStream (.inr hst)) fun h39 => hne (BitVec.eq_of_toNat_eq h39)
    exact .bitHighBit s w f hst hl hlt (hf.trans (tableShift_eq_shiftIn _ _).symm)
  | frame f hst hl h39 hf =>
    have hn : s.bit_cnt.toNat = 39 := congrArg BitVec.toNat h39
    have hshift := hf.trans (tableShift_eq_shiftIn _ _).symm
    cases hv : ckValid f with
    | true =>
      rw [finishFrame_of_valid _ hv]
      exact .bitHighValid s w f hst hl hn hshift ((tableValid_iff_ckValid f).2 hv)
    | false =>
      rw [finishFrame_of_invalid _ hv]
      exact .bitHighInvalid s w f hst hl hn hshift (by simp [tableValid_iff_ckValid, hv])
  | unused hst => exact .unused s w hst

/-- A row of the table is something a tick can do, in any state at all. -/
theorem TableRow.tickCase (h : TableRow s w u) : TickCase s w u := by
  cases h with
  | idleRead hst hw => exact .read hst hw
  | idleNop hst hw =>
    have hc := TickCase.nop hst hw
    rwa [hst] at hc
  | startLowCount hst hd => exact .startLowCount hst hd.ne
  | startLowEnd hst hd => exact .startLowEnd hst hd
  | startHighCount hst hd => exact .startHighCount hst hd.ne
  | startHighEnd hst hd => exact .startHighEnd hst hd
  | hsLowBusy hst hl ht => exact .busy .hsLow hst hl ht
  | hsHighBusy hst hl ht => exact .busy .hsHigh hst hl ht
  | bitLowBusy hst hl ht => exact .busy .bitLow hst hl ht
  | bitHighBusy hst hl ht => exact .busy .bitHigh hst hl ht
  | hsLowDone hst hl => exact .hsLowDone hst hl
  | hsHighDone hst hl => exact .hsHighDone hst hl
  | bitLowDone hst hl => exact .bitLowDone hst hl
  | hsLowTimeout hst hl ht => exact .timeout .hsLow hst hl ht
  | hsHighTimeout hst hl ht => exact .timeout .hsHigh hst hl ht
  | bitLowTimeout hst hl ht => exact .timeout .bitLow hst hl ht
  | bitHighTimeout hst hl ht => exact .timeout .bitHigh hst hl ht
  | bitHighBit f hst hl hlt hf =>
    exact .bit f hst hl (fun h39 => hlt.ne (congrArg BitVec.toNat h39))
      (hf.trans (tableShift_eq_shiftIn _ _))
  | bitHighValid f hst hl hn hf hv =>
    have hc := TickCase.frame (w := w) f hst hl (BitVec.eq_of_toNat_eq hn)
      (hf.trans (tableShift_eq_shiftIn _ _))
    rwa [finishFrame_of_valid _ ((tableValid_iff_ckValid f).1 hv)] at hc
  | bitHighInvalid f hst hl hn hf hv =>
    have hc := TickCase.frame (w := w) f hst hl (BitVec.eq_of_toNat_eq hn)
      (hf.trans (tableShift_eq_shiftIn _ _))
    rwa [finishFrame_of_invalid _ (by simpa [tableValid_iff_ckValid] using hv)] at hc
  | unused hst => exact .unused hst

/-- Where the invariants hold, the table's rows are exactly what a tick can do. -/
theorem tickCase_iff_tableRow (h : Inv s) : TickCase s w u ↔ TableRow s w u :=
  ⟨fun hc => hc.tableRow h, TableRow.tickCase⟩

end

/-- Settles O36: a tick does exactly what `TickCase` allows, and these are the table's rows. -/
theorem stepIsTheTransitionTable : Obligations.StepIsTheTransitionTable := by
  intro s t w h hp hr
  simp only [step_eq_next_iff_tickCase hp hr, tickCase_iff_tableRow h]

/-! ## The start sequence (R125) -/

/-- Where the start sequence stands `k` ticks after the tick that follows a READ: the state code,
and the count of that state's delay. -/
def startPlace (cfg : Config) (k : Nat) : StateCode × Nat :=
  if k < cfg.tStartLow then (.startLow, k)
  else if k < cfg.tStartLow + cfg.tStartHigh then (.startHigh, k - cfg.tStartLow)
  else (.hsLow, 0)

/-- What a READ accepted in `s` has become `k` ticks after the tick that follows it, with `rest`
still to come: the registers of the transaction, and everything else as `s` has it. -/
def started (s : State) (k : Nat) (rest : List Stimulus) : State :=
  { s with st := (startPlace s.cfg k).1, dly_cnt := BitVec.ofNat 16 (startPlace s.cfg k).2,
           pt_cnt := 0, bit_cnt := 0, shreg := 0, done_q := false, inputs := rest,
           tick := s.tick + (k + 1) }

section
variable {s : State} {cfg : Config} {k : Nat} {w : InputWord} {rest : List Stimulus}

theorem startPlace_of_low (h : k < cfg.tStartLow) : startPlace cfg k = (.startLow, k) :=
  if_pos h

theorem startPlace_of_high (hl : cfg.tStartLow ≤ k) (h : k < cfg.tStartLow + cfg.tStartHigh) :
    startPlace cfg k = (.startHigh, k - cfg.tStartLow) := by
  rw [startPlace, if_neg (Nat.not_lt.2 hl), if_pos h]

theorem startPlace_of_end (h : cfg.tStartLow + cfg.tStartHigh ≤ k) :
    startPlace cfg k = (.hsLow, 0) := by
  rw [startPlace, if_neg (by omega), if_neg (Nat.not_lt.2 h)]

theorem started_st {c : StateCode} {n : Nat} (h : startPlace s.cfg k = (c, n)) :
    (started s k rest).st = c := congrArg Prod.fst h

/-- `dly_cnt` holds every count of the start sequence whole (R8, R22). -/
theorem started_dly_cnt_toNat {c : StateCode} {n : Nat} (h : startPlace s.cfg k = (c, n)) :
    (started s k rest).dly_cnt.toNat = n := by
  have hbounds := start_bounds s.cfg
  have hn : (startPlace s.cfg k).2 = n := congrArg Prod.snd h
  have hlt : (startPlace s.cfg k).2 < 2 ^ 16 := by
    unfold startPlace
    split_ifs <;> simp only <;> omega
  exact (Nat.mod_eq_of_lt hlt).trans hn

@[simp] theorem started_cfg (s : State) (k : Nat) (rest : List Stimulus) :
    (started s k rest).cfg = s.cfg := rfl

/-- One tick more of the start sequence, `start` set or not: a delay counts on, or ends. -/
theorem step_started (hr : w.rst = false) (hk : k < s.cfg.tStartLow + s.cfg.tStartHigh) :
    step (started s k (.tick w :: rest)) = .next (started s (k + 1) rest) := by
  have hbounds := start_bounds s.cfg
  have tick {u : State} (hc : TickCase (started s k (.tick w :: rest)) w u) := hc.step_eq rfl hr
  by_cases hl : k < s.cfg.tStartLow
  · have hnow := startPlace_of_low hl
    have hst := started_st (rest := .tick w :: rest) hnow
    have hdly := started_dly_cnt_toNat (rest := .tick w :: rest) hnow
    by_cases hend : k + 1 = s.cfg.tStartLow
    · have hthen : startPlace s.cfg (k + 1) = (.startHigh, 0) := by
        rw [startPlace_of_high (by omega) (by omega), hend, Nat.sub_self]
      rw [tick (.startLowEnd hst (by rw [hdly, started_cfg]; omega))]
      simp [started, hthen, State.advance, Nat.add_assoc]
    · have hthen := startPlace_of_low (cfg := s.cfg) (k := k + 1) (by omega)
      rw [tick (.startLowCount hst (by rw [hdly, started_cfg]; omega))]
      simp [started, hnow, hthen, State.advance, Nat.add_assoc, BitVec.ofNat_add]
  · have hnow := startPlace_of_high (Nat.not_lt.1 hl) hk
    have hst := started_st (rest := .tick w :: rest) hnow
    have hdly := started_dly_cnt_toNat (rest := .tick w :: rest) hnow
    by_cases hend : k + 1 = s.cfg.tStartLow + s.cfg.tStartHigh
    · have hthen := startPlace_of_end (cfg := s.cfg) (k := k + 1) (by omega)
      rw [tick (.startHighEnd hst (by rw [hdly, started_cfg]; omega))]
      simp [started, hthen, State.advance, Nat.add_assoc]
    · have hthen : startPlace s.cfg (k + 1) = (.startHigh, k - s.cfg.tStartLow + 1) := by
        rw [startPlace_of_high (by omega) (by omega), Nat.sub_add_comm (by omega)]
      rw [tick (.startHighCount hst (by rw [hdly, started_cfg]; omega))]
      simp [started, hnow, hthen, State.advance, Nat.add_assoc, BitVec.ofNat_add]

theorem scheduled_append (ws vs : List InputWord) (rest : List Stimulus) :
    scheduled (ws ++ vs) rest = scheduled ws (scheduled vs rest) := by
  simp [scheduled]

/-- The start sequence runs on for as many ticks as it is given, up to its end. -/
theorem runSteps_started {ws : List InputWord} (hr : ∀ w ∈ ws, w.rst = false) (k : Nat)
    (hk : k + ws.length ≤ s.cfg.tStartLow + s.cfg.tStartHigh) :
    runSteps ws.length (started s k (scheduled ws rest)) =
      .next (started s (k + ws.length) rest) := by
  induction ws generalizing k with
  | nil => rfl
  | cons w ws ih =>
    obtain ⟨hw, hws⟩ := List.forall_mem_cons.1 hr
    rw [List.length_cons] at hk ⊢
    have hstep : step (started s k (scheduled (w :: ws) rest)) =
        .next (started s (k + 1) (scheduled ws rest)) := step_started hw (by omega)
    rw [runSteps_succ _ hstep, ih hws (k + 1) (by omega)]
    congr 2
    omega

/-- A READ in IDLE begins the start sequence (R110). -/
theorem step_read (hst : s.st = .idle) (hr : w.rst = false) (hstart : w.start = true)
    (hin : s.inputs = .tick w :: rest) : step s = .next (started s 0 rest) := by
  have hbounds := start_bounds s.cfg
  have hplace : startPlace s.cfg 0 = (.startLow, 0) := startPlace_of_low (by omega)
  rw [(TickCase.read hst hstart).step_eq (present_cons s _ _ hin) hr, started, hplace]
  exact congrArg _ (advance_scheduled _ w rest hin)

/-- `k` ticks after the tick that follows a READ, the start sequence stands at its place `k`,
whatever words without reset these ticks have. -/
theorem runSteps_read {r : InputWord} {ws : List InputWord} (hst : s.st = .idle)
    (hr : r.rst = false) (hstart : r.start = true) (hws : ∀ w ∈ ws, w.rst = false)
    (hin : s.inputs = scheduled (r :: ws) rest) (hk : k ≤ ws.length)
    (hend : k ≤ s.cfg.tStartLow + s.cfg.tStartHigh) :
    runSteps (k + 1) s = .next (started s k (scheduled (ws.drop k) rest)) := by
  have htake : (ws.take k).length = k := List.length_take_of_le hk
  have hrun := runSteps_started (s := s) (ws := ws.take k) (rest := scheduled (ws.drop k) rest)
    (fun w hw => hws w (List.mem_of_mem_take hw)) 0 (by omega)
  rw [← scheduled_append, List.take_append_drop, htake, Nat.zero_add] at hrun
  exact (runSteps_succ k (step_read hst hr hstart hin)).trans hrun

end

/-- Settles O46: after each tick of the sequence `started` is the state, and its code is what drives
the line. -/
theorem startSequenceTimeline : Obligations.StartSequenceTimeline := by
  intro s r ws rest hst hr hstart hws hin hlen
  have after (k : Nat) (hk : k ≤ ws.length) :=
    runSteps_read hst hr hstart hws hin hk (hlen ▸ hk)
  refine ⟨fun k h1 hk => ?low, fun k h1 hk => ?high, ?released⟩
  case low =>
    obtain ⟨k, rfl⟩ := Nat.exists_eq_add_of_le' h1
    exact ⟨_, after k (by omega), drives_low_of_startLow (started_st (startPlace_of_low hk))⟩
  case high =>
    obtain ⟨k, rfl⟩ := Nat.exists_eq_add_of_le' (Nat.le_of_add_left_le h1)
    exact ⟨_, after k (by omega), drives_high_of_startHigh
      (started_st (startPlace_of_high (Nat.le_of_succ_le_succ h1) hk))⟩
  case released =>
    have hplace := startPlace_of_end hlen.ge
    have hcode := started_st (rest := rest) hplace
    have hend : runSteps (ws.length + 1) s = .next (started s ws.length rest) := by
      simpa [scheduled] using after ws.length le_rfl
    exact ⟨_, hend, line_oe_eq_false_iff.2 (by simp [hcode]), ⟨hcode, rfl, rfl, rfl⟩,
      by simp [started, hplace], rfl, rfl, rfl, rfl, rfl, rfl⟩

end Sys2Proof.Machine
end

