-- ==== Sys2Proof/Proofs/Checksum.lean ====
section
/-! PROOF. The checksum (42_checksum.md): the sum over the bytes a frame is made of (R150, R154), and
the errors that it detects (R155). -/

namespace Sys2Proof.Machine

/-! ## The byte sum (R150, R154) -/

/-- R51: the bytes of the frame `0x{b0}{b1}{b2}{b3}{b4}` are the five it was made of, in order. -/
@[simp] theorem frameByte_frameOfBytes (b0 b1 b2 b3 b4 : Byte) {j : Nat} (hj : j < 5) :
    frameByte (frameOfBytes b0 b1 b2 b3 b4) j = [b0, b1, b2, b3, b4][j] := by
  refine BitVec.eq_of_getLsbD_eq fun i hi => ?_
  rw [frameByte_getLsbD _ _ hi, frameOfBytes]
  iterate 4 rw [BitVec.getLsbD_append]
  interval_cases j <;> grind

theorem ckValid_eq_true_iff (f : Frame) : ckValid f = true ↔ ckSum f = frameByte f 4 :=
  decide_eq_true_iff

/-- Settles O24: the sum in numbers, on the five bytes of the frame. -/
theorem checksumIsTheByteSum : Obligations.ChecksumIsTheByteSum := by
  intro b0 b1 b2 b3 b4
  have hsum : (ckSum (frameOfBytes b0 b1 b2 b3 b4)).toNat =
      (b0.toNat + b1.toNat + b2.toNat + b3.toNat) % 256 := by
    simp [ckSum_toNat]
  exact ⟨hsum, by simp [ckValid_eq_true_iff, ← BitVec.toNat_inj, hsum]⟩

/-! ## Error detection (R155) -/

/-- Any four bytes of a Valid frame determine the fifth: modulo 256 the checksum equation can be solved
for each of its bytes (R150). -/
theorem frameByte_eq_of_ckValid {f g : Frame} (hf : ckValid f = true) (hg : ckValid g = true)
    {i : Nat} (hi : i < 5) (hrest : ∀ j < 5, j ≠ i → frameByte f j = frameByte g j) :
    frameByte f i = frameByte g i := by
  rw [ckValid_eq_true_iff] at hf hg
  have hdiff : ckSum f - frameByte f 4 = ckSum g - frameByte g 4 := by
    rw [hf, hg, sub_self, sub_self]
  interval_cases i <;> simpa [ckSum, hrest] using hdiff

/-- Flipping bit `k` changes register bit `k` alone. -/
theorem getLsbD_xor_one_shiftLeft (f : Frame) {k i : Nat} (hi : i < 40) :
    (f ^^^ (1#40 <<< k)).getLsbD i = (f.getLsbD i ^^ decide (i = k)) := by
  simp [← BitVec.twoPow_eq, hi]

/-- Flipping bit `k` leaves every byte but `4 - k / 8`. -/
theorem frameByte_xor_one_shiftLeft_of_ne (f : Frame) {k j : Nat} (hj : j < 5)
    (hne : j ≠ 4 - k / 8) : frameByte (f ^^^ (1#40 <<< k)) j = frameByte f j := by
  refine BitVec.eq_of_getLsbD_eq fun i hi => ?_
  have hk : 32 - 8 * j + i ≠ k := by omega
  have hlt : 32 - 8 * j + i < 40 := by omega
  simp [frameByte_getLsbD _ _ hi, getLsbD_xor_one_shiftLeft f hlt, hk]

/-- Flipping bit `k` changes byte `4 - k / 8`, in its bit `k % 8`. -/
theorem frameByte_xor_one_shiftLeft_ne (f : Frame) {k : Nat} (hk : k < 40) :
    frameByte (f ^^^ (1#40 <<< k)) (4 - k / 8) ≠ frameByte f (4 - k / 8) := by
  intro h
  have hbit := congrArg (BitVec.getLsbD · (k % 8)) h
  have hidx : 32 - 8 * (4 - k / 8) + k % 8 = k := by omega
  have hmod : k % 8 < 8 := Nat.mod_lt k (by decide)
  simp [frameByte_getLsbD _ _ hmod, hidx, getLsbD_xor_one_shiftLeft f hk] at hbit

/-- Settles O26: were the flipped frame Valid too, its flipped byte would be the old one, since the
other four are.  Setting bit 0 of `b0` and clearing bit 0 of `b1` keeps the sum (R155). -/
theorem oneFlippedBitIsDetected : Obligations.OneFlippedBitIsDetected := by
  refine ⟨fun f k hk hf => ?_, 0x2C01170044#40, 32, 24, by decide⟩
  refine Bool.eq_false_iff.2 fun hg => frameByte_xor_one_shiftLeft_ne f hk ?_
  exact frameByte_eq_of_ckValid hg hf (by omega) fun _ => frameByte_xor_one_shiftLeft_of_ne f

end Sys2Proof.Machine
end

