-- ==== Sys2Proof/Proofs/ResetAndHazards.lean ====
section
/-! PROOF. Reset, and the block at rest (70_reset_and_hazards.md): what a reset tick answers (R190,
R191), how the block stays in IDLE (R195), and what the host does with a result (R199). -/

namespace Sys2Proof

/-- R69: the outcome classes have different codes. -/
@[simp] theorem OutcomeClass.code_inj {a b : OutcomeClass} : a.code = b.code ↔ a = b := by
  constructor
  · cases a <;> cases b <;> decide
  · exact congrArg _

namespace Machine

/-! ## A reset tick (R190, R191) -/

/-- The outputs are a function of the registers (R31). -/
theorem sameRegisters.outputs_eq {s t : State} (h : sameRegisters s t) : s.outputs = t.outputs := by
  obtain ⟨hst, -, -, hbit, -, hframe, houtcome, hphase, hdone⟩ := h
  simp [State.outputs, State.line_oe, State.line_out, State.busy, *]

/-- Using up a stimulus writes no register. -/
theorem sameRegisters_advance (s : State) : sameRegisters s.advance s := by
  simp [sameRegisters]

/-- Settles O3: the reset tick answers the reset registers, and the outputs are read off them. -/
theorem resetTickGivesTheResetState : Obligations.ResetTickGivesTheResetState := by
  intro s w hp hr
  have hregs := sameRegisters_advance
    { State.reset with cfg := s.cfg, inputs := s.inputs, tick := s.tick }
  have hout : _ = State.reset.outputs := hregs.outputs_eq
  obtain ⟨hst, hdly, hpt, hbit, hshreg, hframe, houtcome, hphase, hdone⟩ := hregs
  exact ⟨_, step_reset hp hr, hst, hdly, hpt, hbit, hshreg, hframe, houtcome, hphase, hdone,
    advance_cfg _, hout, congrArg Outputs.status hout⟩

/-! ## Rest in IDLE (R195) -/

/-- In IDLE, ticks without reset and start write `done_q`, if there is any tick at all, and nothing else
of the block (R112). -/
theorem runSteps_idle {s : State} {ws : List InputWord} {rest : List Stimulus} (hst : s.st = .idle)
    (hin : s.inputs = scheduled ws rest) (hws : ∀ w ∈ ws, w.rst = false ∧ w.start = false) :
    runSteps ws.length s = .next
      { s with done_q := if ws = [] then s.done_q else false, inputs := rest,
               tick := s.tick + ws.length } := by
  induction ws generalizing s with
  | nil =>
    obtain rfl : s.inputs = rest := hin
    rfl
  | cons w ws ih =>
    obtain ⟨⟨hr, hstart⟩, hws⟩ := List.forall_mem_cons.1 hws
    have hstep : step s = .next
        { s with done_q := false, inputs := scheduled ws rest, tick := s.tick + 1 } := by
      rw [(TickCase.nop hst hstart).step_eq (present_cons s _ _ hin) hr]
      exact congrArg _ (advance_scheduled _ w _ hin)
    rw [List.length_cons, runSteps_succ _ hstep, ih (by exact hst) rfl hws]
    simp [Nat.add_assoc, Nat.add_comm 1]

/-- Settles O6: the reset state is the definition; the run in IDLE writes `done_q` at most, and IDLE
does not drive the line. -/
theorem idleStaysIdleUntilStart : Obligations.IdleStaysIdleUntilStart :=
  ⟨rfl, rfl, rfl, fun _ _ _ hst hin hws =>
    ⟨_, runSteps_idle hst hin hws, hst, line_oe_eq_false_iff.2 (by simp [hst]), rfl⟩⟩

/-! ## The host's cache (R199) -/

/-- R52 in bytes (R51): humidity is byte 0 of the frame, temperature byte 2. -/
theorem readingOf_eq_frameBytes (f : Frame) :
    readingOf f = { humidity := frameByte f 0, temperature := frameByte f 2 } := rfl

section
variable {s : State} (c : HostCache)

/-- Without `done` the host does nothing. -/
theorem hostUpdate_of_not_done (hd : s.done_q = false) : hostUpdate s.outputs c = (c, none) :=
  if_neg (Bool.eq_false_iff.1 hd)

/-- With `done` the host acts on the outcome class alone: the codes tell the classes apart. -/
theorem hostUpdate_of_done (hd : s.done_q = true) :
    hostUpdate s.outputs c =
      if s.outcome_q = .ok then ({ reading := readingOf s.frame_q, everRead := true }, none)
      else if s.outcome_q = .timeout then (c, some (.timeout s.phase_q.code))
      else if s.outcome_q = .checksum then (c, some .checksum)
      else (c, none) := by
  simp [hostUpdate, State.outputs, hd]

end

/-- Settles O53: the host's branches for the three outcomes, and the one without `done`. -/
theorem hostUpdatesItsCacheOnlyOnOk : Obligations.HostUpdatesItsCacheOnlyOnOk := by
  refine fun s c => ⟨fun hd ho => ?ok, fun hd ho => ?timeout, fun hd ho => ?checksum,
    hostUpdate_of_not_done c⟩
  case ok => rw [hostUpdate_of_done c hd, if_pos ho, readingOf_eq_frameBytes]
  case timeout | checksum => simp [hostUpdate_of_done c hd, ho]

end Machine

end Sys2Proof
end

