-- ==== Sys2Proof/Proofs/DecodeEncode.lean ====
section
/-! PROOF. Decoder and encoder against each other and against opcode_table.json (30_encoding.md E1
to E3): the round trip, words written out, and the table's first matching row. -/

namespace Sys2Proof

/-! ## The round trip -/

/-- R72: the PT word gives its level and its timeout back. -/
theorem decodePt9_pt9Word (target : Level) (timeout : BitVec 8) :
    decodePt9 (pt9Word target timeout) = .ptMeasure target timeout := by
  have hbit : (pt9Word target timeout).getLsbD 8 = target.isHigh := by
    rw [pt9Word, BitVec.getLsbD_append]
    simp [Level.bit]
  have hlow : (pt9Word target timeout).extractLsb' 0 8 = timeout :=
    BitVec.extractLsb'_append_eq_right
  rw [decodePt9, hbit, hlow, Level.ofBool_isHigh]

/-- A command's word decodes to it: each operand is a few bits. -/
theorem decode_encode (i : Instr) : decode (encode i) = i := by
  cases i with
  | ptMeasure target timeout => exact decodePt9_pt9Word target timeout
  | readBusy st line => cases st <;> cases line <;> rfl
  | stateHsLow line | stateHsHigh line | stateBitLow line | stateBitHigh line =>
    cases line <;> rfl
  | reset | read | nop | stateStartLow | stateStartHigh | stateUnused | ckValidate => rfl

/-- A word is read back from its own bits, in its own width or in whole bytes (assumption 9). -/
theorem OpWord.ofBits_toNat (w : OpWord) {nbits : Nat}
    (h : nbits = w.width ∨ nbits = 8 * ((w.width + 7) / 8)) :
    OpWord.ofBits nbits w.toNat = .ok w := by
  cases w with
  | cmd6 b | pt9 b | ck40 b =>
    rcases h with rfl | rfl <;> simpa [OpWord.ofBits, OpWord.width, OpWord.toNat] using b.isLt

/-- Bits that are a word's decode to the word's instruction. -/
theorem decodeTableWord_of_ofBits {nbits n : Nat} {w : OpWord}
    (h : OpWord.ofBits nbits n = .ok w) : decodeTableWord nbits n = some (decode w) := by
  simp [decodeTableWord, decodeBits, h]

/-- The table-word decoder reads an instruction back from its word's bits. -/
theorem decodeTableWord_encode (i : Instr) {nbits : Nat}
    (h : nbits = (encode i).width ∨ nbits = 8 * (((encode i).width + 7) / 8)) :
    decodeTableWord nbits (encode i).toNat = some i := by
  rw [decodeTableWord_of_ofBits (OpWord.ofBits_toNat _ h), decode_encode]

/-- Settles O32: the word decodes to its instruction, and both lengths give the word back. -/
theorem decodeEncodeRoundTrip : Obligations.DecodeEncodeRoundTrip := fun i =>
  ⟨decode_encode i, decodeTableWord_encode i (.inl rfl), decodeTableWord_encode i (.inr rfl)⟩

/-! ## The table's words -/

/-- Settles O29: the ten words are read by the decoder itself. -/
theorem wordsOfTheTableDecode : Obligations.WordsOfTheTableDecode := by
  unfold Obligations.WordsOfTheTableDecode
  decide

/-- Settles O31: the 64 words of CMD6, each looked up in the table. -/
theorem firstMatchingRowDecides : Obligations.FirstMatchingRowDecides := by
  unfold Obligations.FirstMatchingRowDecides
  decide

end Sys2Proof
end

