-- ==== Sys2Proof/Proofs/Step.lean ====
section
/-! PROOF. Single steps and what follows from one step at a time: the sub-units run on their own
(30_encoding.md E1), totality and determinism (41_frame_decoder.md R131), completions
(60_exceptions.md G1, G4, G5), reset (70_reset_and_hazards.md I1) and the host's spacing (J2). -/

namespace Sys2Proof.Machine

/-! ## The sub-units run on their own -/

/-- PT.MEASURE writes the count and the answer of one evaluation (R91). -/
theorem exec_ptMeasure {target : Level} {timeout c : BitVec 8} {r : PtResult} {s : State}
    (h : ptEval target timeout s.pt_cnt s.sample = (r, c)) :
    exec (.ptMeasure target timeout) s =
      .next { s with pt_cnt := c, unit_result := some (.pulse r) } := by
  simp only [exec, execPtMeasure, measure, h]

/-- Settles O22: the three answers of one evaluation. -/
theorem ptMeasureWritesOnlyPtCnt : Obligations.PtMeasureWritesOnlyPtCnt := fun _ _ _ =>
  ⟨fun h => exec_ptMeasure (ptEval_of_ne h),
    fun h ht => exec_ptMeasure (ptEval_of_timeout_le h ht),
    fun h ht => exec_ptMeasure (ptEval_of_lt_timeout h ht)⟩

/-- The checksum's verdict as a decision on the five bytes (R150). -/
theorem ckValid_frameOfBytes (b0 b1 b2 b3 b4 : Byte) :
    ckValid (frameOfBytes b0 b1 b2 b3 b4) =
      decide ((b0.toNat + b1.toNat + b2.toNat + b3.toNat) % 256 = b4.toNat) := by
  rw [Bool.eq_iff_iff, decide_eq_true_iff]
  exact (checksumIsTheByteSum b0 b1 b2 b3 b4).2

/-- Settles O25: the operation stores the verdict alone, and the verdict is the byte sum's. -/
theorem ckValidateWritesNoRegister : Obligations.CkValidateWritesNoRegister := by
  intro b0 b1 b2 b3 b4 s
  rw [← ckValid_frameOfBytes]
  rfl

/-! ## A step goes on (R131) -/

/-- Every meaning goes on. -/
theorem exists_exec_eq_next (i : Instr) (s : State) : ∃ t, exec i s = .next t := by
  cases i with
  | readBusy b line =>
    rw [exec_readBusy]
    exact exists_exec_stateOperation_eq_next b line s
  | stateStartLow => exact exists_exec_stateOperation_eq_next .startLow .low s
  | stateStartHigh => exact exists_exec_stateOperation_eq_next .startHigh .low s
  | stateHsLow line => exact exists_exec_stateOperation_eq_next .hsLow line s
  | stateHsHigh line => exact exists_exec_stateOperation_eq_next .hsHigh line s
  | stateBitLow line => exact exists_exec_stateOperation_eq_next .bitLow line s
  | stateBitHigh line => exact exists_exec_stateOperation_eq_next .bitHigh line s
  | reset | read | nop | stateUnused | ptMeasure | ckValidate => exact ⟨_, rfl⟩

/-- A step's answer is its meaning's, with the stimulus used up. -/
theorem exists_exec_of_step {s t : State} (h : step s = .next t) :
    ∃ u, exec (decode s.fetchWord) s = .next u ∧ t = u.advance := by
  obtain ⟨u, hu⟩ := exists_exec_eq_next (decode s.fetchWord) s
  rw [step_of_exec rfl hu] at h
  cases h
  exact ⟨u, hu, rfl⟩

/-- Settles O34: the decoded meaning goes on, so the step does. -/
theorem stepIsTotal : Obligations.StepIsTotal := by
  intro s
  obtain ⟨u, hu⟩ := exists_exec_eq_next (decode s.fetchWord) s
  exact ⟨u.advance, step_of_exec rfl hu⟩

/-- Settles O37: no meaning writes the configuration, and using up a stimulus does not either. -/
theorem noStepChangesTheConfiguration : Obligations.NoStepChangesTheConfiguration := by
  intro s t h
  obtain ⟨u, hu, rfl⟩ := exists_exec_of_step h
  rw [advance_cfg]
  exact (exec_keeps_model_fields hu).1

/-- Settles O33: a step is the decoded meaning by definition; what is presented picks the word. -/
theorem stepRunsTheDecodedInstruction : Obligations.StepRunsTheDecodedInstruction := by
  rintro s i rfl
  exact ⟨step_eq_advanced s, fun w hp => ⟨fetchWord_tick hp, sample_tick hp⟩,
    fun w hp => by simp [State.fetchWord, hp], fun w hp => by simp [State.fetchWord, hp],
    advance_inputs s, sameRegisters_advance s⟩

/-! ## Reset and the invariants -/

/-- Settles O2: the reset state is written out, and its configuration is the default record. -/
theorem resetStateHasTheTableValues : Obligations.ResetStateHasTheTableValues :=
  ⟨rfl, rfl, rfl, rfl, rfl, rfl, rfl, rfl, rfl, rfl⟩

/-- Settles O4: the operation takes the registers of the reset state. -/
theorem resetInstructionCompletes : Obligations.ResetInstructionCompletes := fun _ => rfl

/-- A scheduled tick with `rst = 1` gives the reset state, with the rest of the schedule to come. -/
theorem step_reset_scheduled {s : State} {w : InputWord} {rest : List Stimulus}
    (hin : s.inputs = .tick w :: rest) (hr : w.rst = true) :
    step s = .next { State.reset with cfg := s.cfg, inputs := rest, tick := s.tick + 1 } := by
  rw [step_reset (present_cons s _ _ hin) hr]
  exact congrArg _ (advance_scheduled _ w rest hin)

/-- Further ticks of `rst = 1` keep the reset state (R192). -/
theorem runSteps_reset (cfg : Config) (n : Nat) {ws : List InputWord} (rest : List Stimulus)
    (hws : ∀ w ∈ ws, w.rst = true) :
    runSteps ws.length { State.reset with cfg := cfg, inputs := scheduled ws rest, tick := n } =
      .next { State.reset with cfg := cfg, inputs := rest, tick := n + ws.length } := by
  induction ws generalizing n with
  | nil => rfl
  | cons w ws ih =>
    obtain ⟨hw, hws⟩ := List.forall_mem_cons.1 hws
    rw [List.length_cons, runSteps_succ _ (step_reset_scheduled (rest := scheduled ws rest) rfl hw),
      ih (n + 1) hws]
    simp [Nat.add_assoc, Nat.add_comm 1]

/-- Settles O5: the first tick resets, whatever the state, and the others keep the reset state. -/
theorem heldResetKeepsTheResetState : Obligations.HeldResetKeepsTheResetState := by
  intro s ws rest hin hne hws
  cases ws with
  | nil => exact absurd rfl hne
  | cons w ws =>
    obtain ⟨hw, hws⟩ := List.forall_mem_cons.1 hws
    rw [List.length_cons, runSteps_succ _ (step_reset_scheduled (rest := scheduled ws rest) hin hw),
      runSteps_reset s.cfg (s.tick + 1) rest hws]
    simp [Nat.add_assoc, Nat.add_comm 1]

/-- Settles O43: the reset state is the reset state under the default configuration. -/
theorem resetMeetsTheInvariants : Obligations.ResetMeetsTheInvariants :=
  inv_reset Config.default 0 rfl

/-- Settles O44: a step under the invariants is a reset tick or one of `TickCase`, and both keep
them. -/
theorem everyStepKeepsTheInvariants : Obligations.EveryStepKeepsTheInvariants :=
  fun _ _ h hs => h.after_step hs

/-! ## Completions (R54, R163 to R166) -/

/-- A tick without reset completes in two ways only: a timeout, or the 40th bit. -/
theorem TickCase.completes {s u : State} {w : InputWord} (hc : TickCase s w u)
    (hd : u.done_q = true) :
    (∃ p : Phase, s.st = p.state ∧ w.line_in = p.target ∧
      p.timeoutTicks s.cfg ≤ s.pt_cnt.toNat + 1 ∧ u = raiseTimeout p { s with pt_cnt := 0 }) ∨
    (s.st = .bitHigh ∧ w.line_in = .low ∧ s.bit_cnt = 39 ∧
      ∃ f, u = finishFrame f { s with pt_cnt := 0, shreg := f, bit_cnt := 40 }) := by
  cases hc with
  | timeout p hst hl ht => exact .inl ⟨p, hst, hl, ht, rfl⟩
  | frame f hst hl h39 => exact .inr ⟨hst, hl, h39, f, rfl⟩
  | _ => cases hd

/-- A reset tick does not complete, so a tick that does is one of `TickCase`. -/
theorem tickCase_of_done {s t : State} {w : InputWord} (hp : s.present = .tick w)
    (hs : step s = .next t) (hd : t.done_q = true) :
    ∃ u, t = u.advance ∧ u.done_q = true ∧ TickCase s w u := by
  cases hr : w.rst with
  | true =>
    rw [step_reset hp hr] at hs
    cases hs
    simp [State.reset] at hd
  | false =>
    obtain ⟨u, rfl, hc⟩ := tick_cases hp hr hs
    exact ⟨u, rfl, by simpa using hd, hc⟩

/-- Settles O41: each of the two completions writes its registers in the one step. -/
theorem completionPublishesInOneStep : Obligations.CompletionPublishesInOneStep := by
  intro s t w hp hs hd
  obtain ⟨u, rfl, hdu, hc⟩ := tickCase_of_done hp hs hd
  rcases hc.completes hdu with ⟨p, hst, hl, ht, rfl⟩ | ⟨hst, hl, h39, f, rfl⟩
  · simp [State.busy, hst, hl, ht]
  · simp [State.busy, hst, hl, h39]

/-! ## Two states in step (R131, R168) -/

/-- The two states have the same retained status. -/
def sameRetained (s t : State) : Prop :=
  s.frame_q = t.frame_q ∧ s.outcome_q = t.outcome_q ∧ s.phase_q = t.phase_q

/-- If the first state has just completed, both show the same completion: the same outcome, and the
phase of a timeout or the frame of a finished one. -/
def sameCompletion (s t : State) : Prop :=
  s.done_q = true → s.outcome_q = t.outcome_q ∧
    (s.outcome_q = .timeout → s.phase_q = t.phase_q) ∧
    (s.outcome_q ≠ .timeout → s.frame_q = t.frame_q)

/-- The nine registers are those of a transaction and the retained status (R30, R41). -/
theorem sameRegisters_iff {s t : State} :
    sameRegisters s t ↔ sameTransaction s t ∧ sameRetained s t := by
  unfold sameRegisters sameTransaction sameRetained
  tauto

/-- The same tick from the same transaction registers does the same to them, completes alike, and
keeps an equal retained status equal. -/
theorem TickCase.transfer {s t u : State} {w : InputWord} (hc : TickCase s w u)
    (h : sameTransaction s t) (hcfg : s.cfg = t.cfg) :
    ∃ v, TickCase t w v ∧ sameTransaction u v ∧ sameCompletion u v ∧
      (sameRetained s t → sameRetained u v) := by
  have quiet (hd : u.done_q = false) (hkept : sameRetained u s)
      (hv : TickCase t w { u with
        frame_q := t.frame_q, outcome_q := t.outcome_q, phase_q := t.phase_q, cfg := t.cfg,
        inputs := t.inputs, tick := t.tick, unit_result := t.unit_result }) :
      ∃ v, TickCase t w v ∧ sameTransaction u v ∧ sameCompletion u v ∧
        (sameRetained s t → sameRetained u v) := by
    obtain ⟨hframe, houtcome, hphase⟩ := hkept
    exact ⟨_, hv, ⟨rfl, rfl, rfl, rfl, rfl, rfl⟩, by simp [sameCompletion, hd],
      by simp [sameRetained, hframe, houtcome, hphase]⟩
  obtain ⟨st, dly, pt, bit, sh, frame, outcome, phase, done, cfg, inputs, tick, unit⟩ := t
  obtain ⟨hst, hdly, hpt, hbit, hsh, hdone⟩ := h
  dsimp only at hst hdly hpt hbit hsh hdone hcfg
  subst hst hdly hpt hbit hsh hdone hcfg
  have same : sameRetained s s := ⟨rfl, rfl, rfl⟩
  cases hc with
  | read hst hw => exact quiet rfl same (.read hst hw)
  | nop hst hw => exact quiet rfl same (.nop hst hw)
  | startLowEnd hst hd => exact quiet rfl same (.startLowEnd hst hd)
  | startHighEnd hst hd => exact quiet rfl same (.startHighEnd hst hd)
  | startLowCount hst hd => exact quiet rfl same (.startLowCount hst hd)
  | startHighCount hst hd => exact quiet rfl same (.startHighCount hst hd)
  | busy p hst hl ht => exact quiet rfl same (.busy p hst hl ht)
  | hsLowDone hst hl => exact quiet rfl same (.hsLowDone hst hl)
  | hsHighDone hst hl => exact quiet rfl same (.hsHighDone hst hl)
  | bitLowDone hst hl => exact quiet rfl same (.bitLowDone hst hl)
  | bit f hst hl hne hf => exact quiet rfl same (.bit f hst hl hne hf)
  | unused hst => exact quiet rfl same (.unused hst)
  | timeout p hst hl ht =>
    exact ⟨_, .timeout p hst hl ht, ⟨rfl, rfl, rfl, rfl, rfl, rfl⟩,
      fun _ => ⟨rfl, fun _ => rfl, fun hne => absurd rfl hne⟩, fun hr => ⟨hr.1, rfl, rfl⟩⟩
  | frame f hst hl h39 hf =>
    refine ⟨_, .frame f hst hl h39 hf, ⟨rfl, rfl, rfl, rfl, rfl, rfl⟩,
      fun _ => ⟨rfl, fun ho => ?_, fun _ => rfl⟩, fun hr => ⟨rfl, rfl, hr.2.2⟩⟩
    cases hv : ckValid f <;> simp [hv] at ho

/-- Settles O35: a reset tick gives both states the reset values, and any other tick does the same
to both. -/
theorem registersDependOnlyOnConfigStateAndInput :
    Obligations.RegistersDependOnlyOnConfigStateAndInput := by
  intro s1 s2 t1 t2 w hreg hcfg hp1 hp2 hs1 hs2
  cases hr : w.rst with
  | true =>
    rw [step_reset hp1 hr] at hs1
    rw [step_reset hp2 hr] at hs2
    cases hs1
    cases hs2
    simp [sameRegisters]
  | false =>
    obtain ⟨u, rfl, hc⟩ := tick_cases hp1 hr hs1
    obtain ⟨hsame, hretained⟩ := sameRegisters_iff.1 hreg
    obtain ⟨v, hv, huv, -, hkept⟩ := hc.transfer hsame hcfg
    rw [hv.step_eq hp2 hr] at hs2
    cases hs2
    simpa [sameRegisters] using sameRegisters_iff.2 ⟨huv, hkept hretained⟩

/-- Two states that run on the same transaction registers, under the same configuration and the same
ticks to come. -/
structure InStep (s t : State) : Prop where
  transaction : sameTransaction s t
  cfg : s.cfg = t.cfg
  inputs : s.inputs = t.inputs
  tick : s.tick = t.tick
  ticksOnly : s.inputs.all Stimulus.isTick = true

theorem TickCase.keeps_tick {s u : State} {w : InputWord} (h : TickCase s w u) :
    u.tick = s.tick := by
  cases h <;> rfl

/-- What is presented depends on the schedule and the tick number alone. -/
theorem present_eq_of_inputs_tick {s t : State} (hin : s.inputs = t.inputs)
    (htick : s.tick = t.tick) : s.present = t.present := by
  simp only [State.present, hin, htick]

/-- Using up the same tick keeps two states in step. -/
theorem InStep.advance {s t : State} (h : InStep s t) : InStep s.advance t.advance := by
  obtain ⟨w, hp⟩ := present_tick_of_ticksOnly h.ticksOnly
  have hp' : t.present = .tick w := by rw [← present_eq_of_inputs_tick h.inputs h.tick, hp]
  constructor
  case transaction => simpa [sameTransaction] using h.transaction
  case cfg => simpa using h.cfg
  case inputs => rw [advance_inputs, advance_inputs, h.inputs]
  case tick => rw [advance_tick_of_tick hp, advance_tick_of_tick hp', h.tick]
  case ticksOnly =>
    rw [advance_inputs, List.all_eq_true]
    exact fun x hx => List.all_eq_true.1 h.ticksOnly x (List.mem_of_mem_tail hx)

/-- One tick each keeps two states in step, with the same completion if there is one. -/
theorem InStep.step {s1 s2 : State} (h : InStep s1 s2) :
    ∃ t1 t2, Machine.step s1 = .next t1 ∧ Machine.step s2 = .next t2 ∧ InStep t1 t2 ∧
      sameCompletion t1 t2 := by
  obtain ⟨w, hp⟩ := present_tick_of_ticksOnly h.ticksOnly
  have hp' : s2.present = .tick w := by rw [← present_eq_of_inputs_tick h.inputs h.tick, hp]
  cases hr : w.rst with
  | true =>
    have hreset : InStep { State.reset with cfg := s1.cfg, inputs := s1.inputs, tick := s1.tick }
        { State.reset with cfg := s2.cfg, inputs := s2.inputs, tick := s2.tick } :=
      ⟨⟨rfl, rfl, rfl, rfl, rfl, rfl⟩, h.cfg, h.inputs, h.tick, h.ticksOnly⟩
    exact ⟨_, _, step_reset hp hr, step_reset hp' hr, hreset.advance,
      by simp [sameCompletion, State.reset]⟩
  | false =>
    obtain ⟨t1, hs1⟩ := stepIsTotal s1
    obtain ⟨u, rfl, hu⟩ := tick_cases hp hr hs1
    obtain ⟨v, hv, huv, hdone, -⟩ := hu.transfer h.transaction h.cfg
    obtain ⟨hucfg, huin⟩ := hu.keeps_cfg_inputs
    obtain ⟨hvcfg, hvin⟩ := hv.keeps_cfg_inputs
    have hnext : InStep u v :=
      ⟨huv, by rw [hucfg, hvcfg, h.cfg], by rw [huin, hvin, h.inputs],
        by rw [hu.keeps_tick, hv.keeps_tick, h.tick], by rw [huin, h.ticksOnly]⟩
    exact ⟨_, _, hs1, hv.step_eq hp' hr, hnext.advance, by simpa [sameCompletion] using hdone⟩

/-- Two states in step stay so, and show the same completion whenever there is one. -/
theorem InStep.runSteps {s1 s2 : State} (h : InStep s1 s2) (hd : sameCompletion s1 s2) (n : Nat) :
    ∃ t1 t2, Machine.runSteps n s1 = .next t1 ∧ Machine.runSteps n s2 = .next t2 ∧
      InStep t1 t2 ∧ sameCompletion t1 t2 := by
  induction n generalizing s1 s2 with
  | zero => exact ⟨s1, s2, rfl, rfl, h, hd⟩
  | succ n ih =>
    obtain ⟨t1, t2, hs1, hs2, ht, hdone⟩ := h.step
    rw [runSteps_succ n hs1, runSteps_succ n hs2]
    exact ih ht hdone

/-- Settles O52: the READ gives both states the same transaction registers, and from then on they
are in step. -/
theorem noStateCarriesOverToTheNextRead : Obligations.NoStateCarriesOverToTheNextRead := by
  intro s1 s2 r n hst1 hst2 hcfg hin htick hticks hp hr hstart
  have hp' : s2.present = .tick r := by rw [← present_eq_of_inputs_tick hin htick, hp]
  have hread : InStep
      { s1 with st := .startLow, dly_cnt := 0, pt_cnt := 0, bit_cnt := 0, shreg := 0,
                done_q := false }
      { s2 with st := .startLow, dly_cnt := 0, pt_cnt := 0, bit_cnt := 0, shreg := 0,
                done_q := false } :=
    ⟨⟨rfl, rfl, rfl, rfl, rfl, rfl⟩, hcfg, hin, htick, hticks⟩
  rw [runSteps_succ n ((TickCase.read hst1 hstart).step_eq hp hr),
    runSteps_succ n ((TickCase.read hst2 hstart).step_eq hp' hr)]
  obtain ⟨t1, t2, hrun1, hrun2, ht, hdone⟩ := hread.advance.runSteps (by simp [sameCompletion]) n
  exact ⟨t1, t2, hrun1, hrun2, ht.transaction, hdone⟩

/-! ## The host's spacing (R196, R198, R208) -/

theorem acceptsRead_of_idle {s : State} {w : InputWord} (hst : s.st = .idle)
    (hr : w.rst = false) (hstart : w.start = true) : acceptsRead s w = true := by
  simp [acceptsRead, hst, hr, hstart]

/-- A host that has issued a READ before may issue another exactly when the gap has passed. -/
theorem HostLog.allows_iff {k : Nat} {s : State} {w : InputWord} (hacc : acceptsRead s w = true) :
    (HostLog.mk (some k) true).allows s w ↔ Config.minGap ≤ k := by
  simp [HostLog.allows, hacc]

/-- In IDLE, ticks without reset and start count up the time since the last transaction ended. -/
theorem runLogged_idle {ws : List InputWord} (hws : ∀ w ∈ ws, w.rst = false ∧ w.start = false)
    (k : Nat) {s : State} (hst : s.st = .idle) :
    ∃ t, runLogged ws s ⟨some k, true⟩ = .next (t, ⟨some (k + ws.length), true⟩) ∧
      t.st = .idle := by
  induction ws generalizing s k with
  | nil => exact ⟨s, rfl, hst⟩
  | cons w ws ih =>
    obtain ⟨⟨hr, hstart⟩, hws⟩ := List.forall_mem_cons.1 hws
    rw [runLogged_cons ws _ (tickWith_nop hst hr hstart)]
    simpa [HostLog.after, acceptsRead, hstart, Nat.add_assoc, Nat.add_comm 1]
      using ih hws (k + 1) (s := { s with done_q := false, tick := s.tick + 1 }) hst

/-- Settles O54: the block is in IDLE from the completion on, so it accepts a READ in every tick;
the host's log counts 1 in the tick after the completion, and one more with each tick. -/
theorem startInTheDoneTickBreaksTheSpacing : Obligations.StartInTheDoneTickBreaksTheSpacing := by
  intro h s t w0 w hp hs hd hr hstart
  have hst : t.st = .idle := (completionPublishesInOneStep s t w0 hp hs hd).1
  have hacc := acceptsRead_of_idle hst hr hstart
  have hsince : (h.after s w0 t).sinceEnd = some 1 := if_pos hd
  refine ⟨hacc, fun hallows => ?early, ⟨_, tickWith_read hst hr hstart, rfl⟩,
    fun ws hread hws => ?later⟩
  case early => exact absurd ((hallows hacc).1 1 hsince) (by decide)
  case later =>
    have hlog : h.after s w0 t = ⟨some 1, true⟩ := by simp [HostLog.after, hd, hread]
    obtain ⟨u, hrun, hu⟩ := runLogged_idle hws 1 hst
    have hacc' := acceptsRead_of_idle hu hr hstart
    rw [hlog]
    refine ⟨u, _, hrun, hacc', ?_, _, tickWith_read hu hr hstart, rfl⟩
    rw [HostLog.allows_iff hacc', Nat.add_comm]
    rfl

end Sys2Proof.Machine
end

