-- ==== Sys2Proof/Proofs/WholeTransactions.lean ====
section
/-! PROOF. Whole transactions (41_frame_decoder.md, derived timing and waveform laws, R125 to R129):
what a call of the pulse timer does on given line levels, the response as a list of such calls, and
the time a transaction takes. -/

namespace Sys2Proof.Machine

/-! ## Runs on which the block is busy -/

/-- `n` steps lead from `s` to `t`, and the block is busy before each of them. -/
def BusyRun (n : Nat) (s t : State) : Prop :=
  runSteps n s = .next t ∧ ∀ k < n, ∃ u, runSteps k s = .next u ∧ u.busy = true

theorem BusyRun.trans {m n : Nat} {s t u : State} (h1 : BusyRun m s t) (h2 : BusyRun n t u) :
    BusyRun (m + n) s u := by
  obtain ⟨hrun1, hbusy1⟩ := h1
  obtain ⟨hrun2, hbusy2⟩ := h2
  refine ⟨(runSteps_add hrun1).trans hrun2, fun k hk => ?_⟩
  rcases Nat.lt_or_ge k m with hlt | hge
  · exact hbusy1 k hlt
  · obtain ⟨j, rfl⟩ := Nat.exists_eq_add_of_le hge
    rw [runSteps_add hrun1]
    exact hbusy2 j (Nat.add_lt_add_iff_left.1 hk)

theorem busyRun_one {s t : State} (hst : s.st ≠ .idle) (hstep : step s = .next t) :
    BusyRun 1 s t := by
  refine ⟨runSteps_succ_of_step (runSteps_zero s) hstep, fun k hk => ?_⟩
  obtain rfl := Nat.lt_one_iff.1 hk
  exact ⟨s, rfl, (busy_eq_true_iff s).2 hst⟩

/-- A run from a busy state to IDLE takes a step. -/
theorem BusyRun.pos {n : Nat} {s t : State} (h : BusyRun n s t) (hs : s.st ≠ .idle)
    (ht : t.st = .idle) : 0 < n := by
  refine Nat.pos_of_ne_zero fun hn => hs ?_
  subst hn
  cases h.1
  exact ht

/-! ## What the coming line levels do -/

/-- From every state that meets `P`, the coming line levels, without a reset, keep the block busy
until they are used up, and lead to a state that meets `Q`. -/
def Hears (P : State → Prop) (levels : List Level) (Q : State → Prop) : Prop :=
  ∀ (s : State) (ws : List InputWord) (rest : List Stimulus), P s → feeds s ws rest levels →
    ∃ t, BusyRun ws.length s t ∧ t.inputs = rest ∧ Q t

/-- Levels in two parts are fed one part after the other. -/
theorem feeds_append {s : State} {ws : List InputWord} {rest : List Stimulus}
    {levels more : List Level} (h : feeds s ws rest (levels ++ more)) :
    ∃ ws1 ws2, ws = ws1 ++ ws2 ∧ feeds s ws1 (scheduled ws2 rest) levels ∧
      ∀ t : State, t.inputs = scheduled ws2 rest → feeds t ws2 rest more := by
  obtain ⟨hin, hr, hl⟩ := h
  obtain ⟨ws1, ws2, rfl, hl1, hl2⟩ := List.map_eq_append_iff.1 hl
  rw [scheduled_append] at hin
  rw [List.forall_mem_append] at hr
  exact ⟨ws1, ws2, rfl, ⟨hin, hr.1, hl1⟩, fun t ht => ⟨ht, hr.2, hl2⟩⟩

section
variable {P Q R : State → Prop} {levels more : List Level}

theorem Hears.append (h1 : Hears P levels Q) (h2 : Hears Q more R) :
    Hears P (levels ++ more) R := by
  intro s ws rest hs hf
  obtain ⟨ws1, ws2, rfl, hf1, hf2⟩ := feeds_append hf
  obtain ⟨t, hrun1, hin1, ht⟩ := h1 s ws1 _ hs hf1
  obtain ⟨u, hrun2, hin2, hu⟩ := h2 t ws2 rest ht (hf2 t hin1)
  exact ⟨u, List.length_append ▸ hrun1.trans hrun2, hin2, hu⟩

theorem hears_nil : Hears P [] P := by
  rintro s ws rest hs ⟨hin, -, hl⟩
  obtain rfl := List.map_eq_nil_iff.1 hl
  exact ⟨s, ⟨rfl, nofun⟩, hin, hs⟩

/-- One level is one tick. -/
theorem hears_singleton {l : Level} (hbusy : ∀ s, P s → s.st ≠ .idle)
    (hstep : ∀ s w rest, P s → s.inputs = .tick w :: rest → w.rst = false → w.line_in = l →
      ∃ t, step s = .next t ∧ t.inputs = rest ∧ Q t) : Hears P [l] Q := by
  rintro s ws rest hs ⟨hin, hr, hl⟩
  obtain ⟨w, rfl, hwl⟩ := List.map_eq_singleton_iff.1 hl
  obtain ⟨t, ht, htin, hq⟩ := hstep s w rest hs hin (hr w (List.mem_singleton_self w)) hwl
  exact ⟨t, busyRun_one (hbusy s hs) ht, htin, hq⟩

end

/-! ## A call on given levels -/

/-- The transaction that `s0` is in has come to the call of phase `p`, which has counted `n`
samples; `bits` have been received, and nothing has been published since `s0`. -/
structure InCall (s0 : State) (p : Phase) (bits : List Bool) (n : Nat) (s : State) : Prop where
  st : s.st = p.state
  pt_cnt : s.pt_cnt.toNat = n
  assembled : Assembled s bits
  cfg : s.cfg = s0.cfg
  frame_q : s.frame_q = s0.frame_q
  phase_q : s.phase_q = s0.phase_q

/-- The transaction that `s0` was in has ended with a timeout of phase `p` after `count` bits. -/
structure TimedOut (s0 : State) (p : Phase) (count : Nat) (s : State) : Prop where
  st : s.st = .idle
  done_q : s.done_q = true
  outcome_q : s.outcome_q = .timeout
  phase_q : s.phase_q = p
  bit_cnt : s.bit_cnt.toNat = count
  frame_q : s.frame_q = s0.frame_q
  cfg : s.cfg = s0.cfg

/-- The transaction that `s0` was in has ended with the frame that `bits` make. -/
structure Completed (s0 : State) (bits : List Bool) (s : State) : Prop where
  st : s.st = .idle
  done_q : s.done_q = true
  bit_cnt : s.bit_cnt = 40
  shreg : s.shreg = BitVec.ofNat 40 (bitsValue bits)
  frame_q : s.frame_q = s.shreg
  outcome_q : s.outcome_q = if ckValid s.frame_q then .ok else .checksum
  phase_q : s.phase_q = s0.phase_q

/-- The call that follows, if the transaction goes on (R115 to R118). -/
def nextPhase : Phase → Phase
  | .hsLow => .hsHigh
  | .hsHigh => .bitLow
  | .bitLow => .bitHigh
  | .bitHigh => .bitLow

/-- The bits received after a call of length `e`: a high phase is one more (R118, R119). -/
def bitsAfter (cfg : Config) (p : Phase) (bits : List Bool) (e : Nat) : List Bool :=
  match p with
  | .hsLow | .hsHigh | .bitLow => bits
  | .bitHigh => bits ++ [classify cfg e]

/-- The levels of a whole call: `n` samples at the target, then the one away from it that ends the
call. -/
def callLevels (p : Phase) (n : Nat) : List Level := List.replicate n p.target ++ [p.target.flip]

/-- `n` bits make a number below `2 ^ n`. -/
theorem bitsValue_lt (bits : List Bool) : bitsValue bits < 2 ^ bits.length := by
  induction bits using List.reverseRecOn with
  | nil => decide
  | append_singleton bits b ih =>
    have hb := b.toNat_le
    rw [bitsValue_append_singleton, List.length_append, List.length_singleton, Nat.pow_succ]
    omega

section
variable {s0 s : State} {p : Phase} {bits : List Bool} {n : Nat}

theorem InCall.st_ne_idle (h : InCall s0 p bits n s) : s.st ≠ .idle := by
  rw [h.st]
  exact phase_state_ne_idle p

/-- One more bit is counted, and `shreg` is the number that the bits then make (R120). -/
theorem Assembled.shiftIn (h : Assembled s bits) (hlen : bits.length ≤ 39) (b : Bool) :
    (s.bit_cnt + 1).toNat = (bits ++ [b]).length ∧
      (Machine.shiftIn s.shreg b).toNat = bitsValue (bits ++ [b]) := by
  obtain ⟨hcount, hvalue⟩ := h
  constructor
  · rw [BitVec.toNat_add_of_lt (by simp; omega), ← hcount, List.length_append]
    rfl
  · have hlt : bitsValue (bits ++ [b]) < 2 ^ 40 :=
      (bitsValue_lt _).trans_le (Nat.pow_le_pow_right (by decide) (by simp; omega))
    rw [shiftIn_toNat, hvalue, ← bitsValue_append_singleton, Nat.mod_eq_of_lt hlt]

/-- A sample at the target before the timeout counts. -/
theorem hears_wait (hn : n + 1 < p.timeoutTicks s0.cfg) :
    Hears (InCall s0 p bits n) [p.target] (InCall s0 p bits (n + 1)) := by
  refine hears_singleton (fun s h => h.st_ne_idle) fun s w rest h hin hr hl => ?_
  have ht : s.pt_cnt.toNat + 1 < p.timeoutTicks s.cfg := by rwa [h.pt_cnt, h.cfg]
  have hcount : (s.pt_cnt + 1).toNat = n + 1 := by
    rw [toNat_add_one_of_lt_timeout (t := p.timeout s.cfg) (by rwa [timeout_toNat]), h.pt_cnt]
  exact ⟨_, step_phase_waits h.st hin hr hl ht, rfl,
    { h with pt_cnt := hcount, assembled := h.assembled }⟩

/-- A sample at the target at the timeout ends the transaction (R164). -/
theorem hears_lastWait (hn : p.timeoutTicks s0.cfg ≤ n + 1) :
    Hears (InCall s0 p bits n) [p.target] (TimedOut s0 p bits.length) := by
  refine hears_singleton (fun s h => h.st_ne_idle) fun s w rest h hin hr hl => ?_
  have ht : p.timeoutTicks s.cfg ≤ s.pt_cnt.toNat + 1 := by rwa [h.pt_cnt, h.cfg]
  exact ⟨_, step_phase_timesOut h.st hin hr hl ht, rfl,
    ⟨rfl, rfl, rfl, rfl, h.assembled.1.symm, h.frame_q, h.cfg⟩⟩

/-- Samples at the target below the timeout leave the call waiting. -/
theorem hears_waits (hn : n < p.timeoutTicks s0.cfg) :
    Hears (InCall s0 p bits 0) (List.replicate n p.target) (InCall s0 p bits n) := by
  induction n with
  | zero => exact hears_nil
  | succ n ih =>
    rw [List.replicate_succ']
    exact (ih (Nat.lt_of_succ_lt hn)).append (hears_wait hn)

/-- As many samples at the target as the timeout end the transaction (R95, R128). -/
theorem hears_timeout :
    Hears (InCall s0 p bits 0) (List.replicate (p.timeoutTicks s0.cfg) p.target)
      (TimedOut s0 p bits.length) := by
  obtain ⟨n, hn⟩ := Nat.exists_eq_add_of_le' (timeoutTicks_bounds s0.cfg p).1
  rw [hn, List.replicate_succ']
  exact (hears_waits (by omega)).append (hears_lastWait hn.le)

/-- A sample away from the target ends the call and begins the next one, unless it ends the 40th
bit. -/
theorem hears_done (hbits : p = .bitHigh → bits.length < 39) :
    Hears (InCall s0 p bits n) [p.target.flip]
      (InCall s0 (nextPhase p) (bitsAfter s0.cfg p bits (n + 1)) 0) := by
  refine hears_singleton (fun s h => h.st_ne_idle) fun s w rest h hin hr hl => ?_
  refine ⟨_, step_phase_done h.st hin hr ((level_ne_iff _ _).2 hl), ?_⟩
  cases p with
  | hsLow | hsHigh | bitLow =>
    refine ⟨by simp [endCall, hin], ?_⟩
    exact {
      st := by simp [endCall, nextPhase, Phase.state]
      pt_cnt := by simp [endCall]
      assembled := by simpa [Assembled, endCall, bitsAfter] using h.assembled
      cfg := by simp [endCall, h.cfg]
      frame_q := by simp [endCall, h.frame_q]
      phase_q := by simp [endCall, h.phase_q] }
  | bitHigh =>
    have hlen := hbits rfl
    have hne : s.bit_cnt ≠ 39 := fun h39 => by
      have hcount := h.assembled.1
      rw [h39] at hcount
      exact hlen.ne hcount
    obtain ⟨hcount, hvalue⟩ := h.assembled.shiftIn hlen.le (classify s0.cfg (n + 1))
    simp only [endCall, h.pt_cnt]
    rw [takeBit_of_ne (s := { s with pt_cnt := 0 }) hne]
    refine ⟨by simp [hin], ?_⟩
    exact {
      st := by simp [nextPhase, Phase.state]
      pt_cnt := by simp
      assembled := by simp [Assembled, bitsAfter, h.cfg, ← hcount, hvalue]
      cfg := by simp [h.cfg]
      frame_q := by simp [h.frame_q]
      phase_q := by simp [h.phase_q] }

/-- The low sample after the 40th high phase completes the frame (R121). -/
theorem hears_lastBit (hlen : bits.length = 39) :
    Hears (InCall s0 .bitHigh bits n) [Level.low]
      (Completed s0 (bits ++ [classify s0.cfg (n + 1)])) := by
  refine hears_singleton (fun s h => h.st_ne_idle) fun s w rest h hin hr hl => ?_
  have h39 : s.bit_cnt = 39 := BitVec.eq_of_toNat_eq (h.assembled.1.symm.trans hlen)
  obtain ⟨-, hvalue⟩ := h.assembled.shiftIn hlen.le (classify s0.cfg (n + 1))
  refine ⟨_, step_phase_done h.st hin hr ((level_ne_iff _ _).2 hl), ?_⟩
  simp only [endCall, h.pt_cnt]
  rw [takeBit_of_eq (s := { s with pt_cnt := 0 }) h39]
  refine ⟨by simp [hin], ?_⟩
  exact {
    st := by simp
    done_q := by simp
    bit_cnt := by simp
    shreg := by simp [h.cfg, ← hvalue]
    frame_q := by simp
    outcome_q := by simp
    phase_q := by simp [h.phase_q] }

/-- A whole call ends with the count of its samples. -/
theorem hears_call (hn : n < p.timeoutTicks s0.cfg) (hbits : p = .bitHigh → bits.length < 39) :
    Hears (InCall s0 p bits 0) (callLevels p n)
      (InCall s0 (nextPhase p) (bitsAfter s0.cfg p bits (n + 1)) 0) :=
  (hears_waits hn).append (hears_done hbits)

end

/-- At response sample 1 the call of HS_LOW begins (R125). -/
theorem inCall_of_atResponse {s : State} (h : atResponse s) : InCall s .hsLow [] 0 s := by
  obtain ⟨hst, hpt, hbit, hsh⟩ := h
  exact ⟨hst, by simp [hpt], ⟨by simp [hbit], by simp [hsh]⟩, rfl, rfl, rfl⟩

/-! ## The response as calls (R126) -/

/-- The acknowledge and the first high sample as calls: HS_LOW, HS_HIGH, and a BIT_LOW of one sample
(R127). -/
def ackCalls (alpha gamma : Nat) : List Level :=
  callLevels .hsLow alpha ++ (callLevels .hsHigh (gamma - 1) ++ callLevels .bitLow 0)

/-- The levels after the low sample that ends a bit, up to the one that ends the next: BIT_LOW, then
BIT_HIGH. -/
def bitCalls (width : Nat × Nat) : List Level :=
  callLevels .bitLow (width.1 - 1) ++ callLevels .bitHigh (width.2 - 1)

/-- The runs of the bits after the first, as `waveform` has them. -/
def widthRuns (widths : List (Nat × Nat)) : List LevelRun :=
  widths.flatMap fun p => [⟨.low, p.1⟩, ⟨.high, p.2⟩]

theorem expandRuns_widthRuns_cons (p : Nat × Nat) (widths : List (Nat × Nat)) :
    expandRuns (widthRuns (p :: widths)) = List.replicate p.1 Level.low ++
      (List.replicate p.2 Level.high ++ expandRuns (widthRuns widths)) := rfl

theorem expandRuns_waveform (alpha gamma eta0 : Nat) (widths : List (Nat × Nat)) :
    expandRuns (waveform alpha gamma eta0 widths) =
      List.replicate alpha Level.high ++ (List.replicate gamma Level.low ++
        (List.replicate eta0 Level.high ++ expandRuns (widthRuns widths))) := rfl

theorem replicate_eq_cons {n : Nat} (h : 1 ≤ n) (l : Level) :
    List.replicate n l = l :: List.replicate (n - 1) l := by
  obtain ⟨m, rfl⟩ := Nat.exists_eq_add_of_le' h
  rfl

/-- The runs of bits and a low sample are a low sample and the calls of the bits. -/
theorem expandRuns_widthRuns_append_low {cfg : Config} {widths : List (Nat × Nat)}
    (h : widthsFit cfg widths) :
    expandRuns (widthRuns widths) ++ [Level.low] = Level.low :: widths.flatMap bitCalls := by
  induction widths with
  | nil => rfl
  | cons p widths ih =>
    obtain ⟨⟨hlow, -, hhigh, -⟩, hrest⟩ := List.forall_mem_cons.1 h
    rw [expandRuns_widthRuns_cons, List.append_assoc, List.append_assoc, ih hrest,
      replicate_eq_cons hlow, replicate_eq_cons hhigh]
    simp [bitCalls, callLevels, Phase.target, Level.flip]

/-- A response's levels, whatever bits follow the first, begin with the calls of the acknowledge. -/
theorem expandRuns_waveform_eq_ackCalls {alpha gamma eta0 : Nat} (widths : List (Nat × Nat))
    (hg : 1 ≤ gamma) (he : 2 ≤ eta0) :
    expandRuns (waveform alpha gamma eta0 widths) = ackCalls alpha gamma ++
      (List.replicate (eta0 - 2) Level.high ++ expandRuns (widthRuns widths)) := by
  rw [expandRuns_waveform, replicate_eq_cons hg, replicate_eq_cons (n := eta0) (by omega),
    replicate_eq_cons (n := eta0 - 1) (by omega), Nat.sub_sub]
  simp [ackCalls, callLevels, Phase.target, Level.flip]

/-- A response's levels up to the sample that ends its last bit, as calls. -/
theorem expandRuns_waveform_append_low {cfg : Config} {alpha gamma eta0 : Nat}
    {widths : List (Nat × Nat)} (hhead : headFits cfg alpha gamma eta0)
    (hfit : widthsFit cfg widths) :
    expandRuns (waveform alpha gamma eta0 widths) ++ [Level.low] =
      (ackCalls alpha gamma ++ callLevels .bitHigh (eta0 - 2)) ++ widths.flatMap bitCalls := by
  obtain ⟨-, hg, -, he, -⟩ := hhead
  rw [expandRuns_waveform_eq_ackCalls widths hg he, List.append_assoc, List.append_assoc,
    expandRuns_widthRuns_append_low hfit]
  simp [callLevels, Phase.target, Level.flip]

section
variable {s0 : State} {bits : List Bool} {alpha gamma eta0 : Nat} {widths : List (Nat × Nat)}

/-- The acknowledge leads to the first high phase. -/
theorem hears_ackCalls (ha : alpha + 1 ≤ s0.cfg.toHsLow) (hg : gamma ≤ s0.cfg.toHsHigh)
    (hg1 : 1 ≤ gamma) :
    Hears (InCall s0 .hsLow [] 0) (ackCalls alpha gamma) (InCall s0 .bitHigh [] 0) :=
  (hears_call (p := .hsLow) ha nofun).append
    ((hears_call (p := .hsHigh) (Nat.lt_of_lt_of_le (Nat.sub_lt hg1 Nat.one_pos) hg) nofun).append
      (hears_call (p := .bitLow) (timeoutTicks_bounds s0.cfg .bitLow).1 nofun))

/-- The acknowledge and the first high phase give the first bit. -/
theorem hears_firstBit (h : headFits s0.cfg alpha gamma eta0) :
    Hears (InCall s0 .hsLow [] 0) (ackCalls alpha gamma ++ callLevels .bitHigh (eta0 - 2))
      (InCall s0 .bitLow (waveformBits s0.cfg eta0 []) 0) := by
  obtain ⟨ha, hg1, hg, he, hhigh⟩ := h
  have hlen : eta0 - 2 + 1 = eta0 - 1 := by omega
  have hlt : eta0 - 2 < Phase.bitHigh.timeoutTicks s0.cfg := by
    simp only [Phase.timeoutTicks]
    omega
  have hcall := hears_call (p := .bitHigh) (bits := []) hlt (fun _ => by decide)
  rw [hlen] at hcall
  exact (hears_ackCalls ha hg hg1).append hcall

/-- A low phase within its bound leads to the high phase of the next bit. -/
theorem hears_lowPhase {low : Nat} (h1 : 1 ≤ low) (h : low ≤ s0.cfg.toBitLow) :
    Hears (InCall s0 .bitLow bits 0) (callLevels .bitLow (low - 1))
      (InCall s0 .bitHigh bits 0) :=
  hears_call (p := .bitLow) (Nat.lt_of_lt_of_le (Nat.sub_lt h1 Nat.one_pos) h) nofun

/-- Each pair of widths within the bounds gives one bit, as long as the frame is not full. -/
theorem hears_bitCalls (hfit : widthsFit s0.cfg widths) (hlen : bits.length + widths.length ≤ 39) :
    Hears (InCall s0 .bitLow bits 0) (widths.flatMap bitCalls)
      (InCall s0 .bitLow (bits ++ widths.map fun p => classify s0.cfg p.2) 0) := by
  induction widths generalizing bits with
  | nil => simpa using hears_nil
  | cons p widths ih =>
    obtain ⟨⟨hlow1, hlow, hhigh1, hhigh⟩, hrest⟩ := List.forall_mem_cons.1 hfit
    rw [List.length_cons] at hlen
    have hbit := hears_call (s0 := s0) (p := .bitHigh) (bits := bits)
      (Nat.lt_of_lt_of_le (Nat.sub_lt hhigh1 Nat.one_pos) hhigh) (fun _ => by omega)
    rw [Nat.sub_add_cancel hhigh1] at hbit
    have hmore := ih (bits := bits ++ [classify s0.cfg p.2]) hrest
      (by rw [List.length_append, List.length_singleton]; omega)
    rw [List.append_assoc] at hmore
    exact ((hears_lowPhase hlow1 hlow).append hbit).append hmore

/-- The 40th bit's pair of widths completes the frame. -/
theorem hears_lastBitCalls {p : Nat × Nat} (hfit : widthsFit s0.cfg [p]) (hlen : bits.length = 39) :
    Hears (InCall s0 .bitLow bits 0) (bitCalls p)
      (Completed s0 (bits ++ [classify s0.cfg p.2])) := by
  obtain ⟨hlow1, hlow, hhigh1, hhigh⟩ := hfit p (List.mem_singleton_self p)
  have hbit := (hears_waits (s0 := s0) (p := .bitHigh) (bits := bits)
    (Nat.lt_of_lt_of_le (Nat.sub_lt hhigh1 Nat.one_pos) hhigh)).append (hears_lastBit hlen)
  rw [Nat.sub_add_cancel hhigh1] at hbit
  exact (hears_lowPhase hlow1 hlow).append hbit

/-- A response of fewer than 40 bits within the bounds leads to the low phase after its last bit. -/
theorem hears_waveform (hhead : headFits s0.cfg alpha gamma eta0) (hfit : widthsFit s0.cfg widths)
    (hlen : widths.length ≤ 38) :
    Hears (InCall s0 .hsLow [] 0) (expandRuns (waveform alpha gamma eta0 widths) ++ [Level.low])
      (InCall s0 .bitLow (waveformBits s0.cfg eta0 widths) 0) := by
  rw [expandRuns_waveform_append_low hhead hfit]
  refine (hears_firstBit hhead).append (hears_bitCalls hfit ?_)
  simp [waveformBits]
  omega

/-- A response of 40 bits within the bounds completes, with the bits that its widths give (R126). -/
theorem hears_fullWaveform (hhead : headFits s0.cfg alpha gamma eta0)
    (hfit : widthsFit s0.cfg widths) (hlen : widths.length = 39) :
    Hears (InCall s0 .hsLow [] 0) (expandRuns (waveform alpha gamma eta0 widths) ++ [Level.low])
      (Completed s0 (waveformBits s0.cfg eta0 widths)) := by
  rw [expandRuns_waveform_append_low hhead hfit]
  rcases List.eq_nil_or_concat' widths with rfl | ⟨init, p, rfl⟩
  · exact absurd hlen (by decide)
  obtain ⟨hinit, hlast⟩ := List.forall_mem_append.1 hfit
  rw [List.length_append, List.length_singleton] at hlen
  have hbits := hears_bitCalls (s0 := s0) (bits := waveformBits s0.cfg eta0 []) hinit
    (by simp [waveformBits]; omega)
  have hend := hears_lastBitCalls (s0 := s0) (p := p)
    (bits := waveformBits s0.cfg eta0 [] ++ init.map fun p => classify s0.cfg p.2) hlast
    (by simp [waveformBits]; omega)
  have hrun := (hears_firstBit hhead).append (hbits.append hend)
  simpa [waveformBits, classify] using hrun

end

/-- The number of samples of a response (R126). -/
theorem length_expandRuns_waveform (alpha gamma eta0 : Nat) (widths : List (Nat × Nat)) :
    (expandRuns (waveform alpha gamma eta0 widths)).length =
      alpha + gamma + eta0 + (widths.map fun p => p.1 + p.2).sum := by
  have hbits : (expandRuns (widthRuns widths)).length = (widths.map fun p => p.1 + p.2).sum := by
    induction widths with
    | nil => rfl
    | cons p widths ih => simp [expandRuns_widthRuns_cons, ih, Nat.add_assoc]
  simp [expandRuns_waveform, hbits, Nat.add_assoc]

/-- Levels that are fed are as many as their words. -/
theorem feeds_length {s : State} {ws : List InputWord} {rest : List Stimulus} {levels : List Level}
    (h : feeds s ws rest levels) : ws.length = levels.length := by
  rw [← h.2.2, List.length_map]

/-- Settles O47: the response is a list of calls within their bounds, the last of which ends the
40th bit. -/
theorem lineWithinTheBoundsDecodes : Obligations.LineWithinTheBoundsDecodes := by
  rintro s alpha gamma eta0 widths ws rest f hat hhead hlen hfit hfeeds rfl
  rw [expandRuns_append] at hfeeds
  have hcount : ws.length = alpha + gamma + eta0 + 1 + (widths.map fun p => p.1 + p.2).sum := by
    rw [feeds_length hfeeds, List.length_append, length_expandRuns_waveform]
    exact Nat.add_right_comm _ _ 1
  obtain ⟨t, ⟨hrun, hbusy⟩, hin, ht⟩ :=
    hears_fullWaveform hhead hfit hlen s ws rest (inCall_of_atResponse hat) hfeeds
  have hframe := ht.frame_q.trans ht.shreg
  exact ⟨hcount, hbusy, t, hrun, ht.st, ht.done_q, ht.bit_cnt, hframe, ht.shreg,
    hframe ▸ ht.outcome_q, ht.phase_q, hin⟩

/-! ## The first broken bound (R126, R128) -/

/-- Levels that lead from response sample 1 to a timeout are a timeout after as many steps. -/
theorem timesOutAfter_of_hears {s : State} {ws : List InputWord} {rest : List Stimulus}
    {levels : List Level} {p : Phase} {count : Nat} (hat : atResponse s)
    (h : Hears (InCall s .hsLow [] 0) levels (TimedOut s p count)) (hf : feeds s ws rest levels) :
    timesOutAfter ws.length s p count := by
  obtain ⟨t, ⟨hrun, -⟩, -, ht⟩ := h s ws rest (inCall_of_atResponse hat) hf
  exact ⟨t, hrun, ht.st, ht.done_q, ht.outcome_q, ht.phase_q, ht.bit_cnt, ht.frame_q⟩

/-- Settles O48: up to the broken bound the response is a list of calls, and the broken one is as
many samples at its target as its timeout. -/
theorem firstBrokenBoundTimesOut : Obligations.FirstBrokenBoundTimesOut := by
  intro s alpha gamma eta0 widths low ws rest hat hhead hlen hfit hlow1 hlow
  have ⟨ha, hg1, hg, _, _⟩ := hhead
  have hbits : (waveformBits s.cfg eta0 widths).length = widths.length + 1 := by
    simp [waveformBits]
  refine ⟨fun hf => timesOutAfter_of_hears hat ?hsLow hf,
    fun hf => timesOutAfter_of_hears hat ?hsHigh hf, fun hf => timesOutAfter_of_hears hat ?first hf,
    fun hf => timesOutAfter_of_hears hat ?bitLow hf,
    fun hf => timesOutAfter_of_hears hat ?bitHigh hf⟩
  case hsLow =>
    have hrun := hears_timeout (s0 := s) (p := .hsLow) (bits := [])
    simpa [Phase.target, Phase.timeoutTicks] using hrun
  case hsHigh =>
    have hrun := (hears_call (s0 := s) (p := .hsLow) (bits := []) ha nofun).append hears_timeout
    simpa [callLevels, Phase.target, Level.flip, Phase.timeoutTicks, nextPhase, bitsAfter,
      List.replicate_succ] using hrun
  case first =>
    rw [expandRuns_waveform_eq_ackCalls [] hg1 (by omega)]
    have hrun := (hears_ackCalls ha hg hg1).append (hears_timeout (s0 := s) (p := .bitHigh))
    simpa [widthRuns, Phase.target, Phase.timeoutTicks] using hrun
  case bitLow =>
    have hrun := (hears_waveform hhead hfit hlen).append hears_timeout
    rw [hbits] at hrun
    simpa [Phase.target, Phase.timeoutTicks, List.replicate_succ] using hrun
  case bitHigh =>
    have hrun := (hears_waveform hhead hfit hlen).append
      ((hears_lowPhase hlow1 hlow).append hears_timeout)
    rw [hbits] at hrun
    simpa [callLevels, Phase.target, Level.flip, Phase.timeoutTicks, List.replicate_succ,
      replicate_eq_cons hlow1] using hrun

/-! ## The script's frame (R77, R78) -/

/-- The bits shifted into an empty register are the number they make (R51). -/
theorem ofNat_bitsValue (bits : List Bool) :
    BitVec.ofNat 40 (bitsValue bits) = bits.foldl shiftIn 0 := by
  induction bits using List.reverseRecOn with
  | nil => rfl
  | append_singleton bits b ih =>
    rw [List.foldl_concat, ← ih]
    refine BitVec.eq_of_toNat_eq ?_
    rw [shiftIn_toNat, bitsValue_append_singleton, BitVec.toNat_ofNat, BitVec.toNat_ofNat]
    omega

/-- A frame is the number that its forty bits make, in the order of R51. -/
theorem ofNat_bitsValue_frameBits (f : Frame) :
    BitVec.ofNat 40 (bitsValue ((List.range 40).map (frameBit f))) = f := by
  refine BitVec.eq_of_getLsbD_eq fun i hi => Option.some_injective _ ?_
  have hidx : 39 - (39 - i) = i := by omega
  have hbit := foldl_shiftIn_getLsbD_sub 0 (bits := (List.range 40).map (frameBit f))
    (k := 39 - i) (by simp) (by omega)
  rw [hidx] at hbit
  rw [ofNat_bitsValue, hbit]
  simp [frameBit, hidx, show 39 - i < 40 by omega]

/-- The length of the first high run of a FRAME (R78). -/
def firstHigh (f : Frame) : Nat := if frameBit f 0 then 71 else 28

/-- The widths of the bits after the first in a FRAME (R78). -/
def frameWidths (f : Frame) : List (Nat × Nat) :=
  (List.range 39).map fun k => (50, if frameBit f (k + 1) then 70 else 27)

/-- `ACK(a, c) FRAME(...)` is a response of R126's form. -/
theorem ackRuns_append_frameRuns (a c : Nat) (f : Frame) :
    ackRuns a c ++ frameRuns f = waveform a c (firstHigh f) (frameWidths f) := by
  simp [ackRuns, frameRuns, firstBitRuns, bitRuns, waveform, firstHigh, frameWidths,
    List.flatMap_map]

/-- Under the default bounds the widths of a FRAME give the frame's bits. -/
theorem waveformBits_frame (f : Frame) :
    waveformBits Config.default (firstHigh f) (frameWidths f) =
      (List.range 40).map (frameBit f) := by
  have hfirst : decide (40 < firstHigh f - 1) = frameBit f 0 := by
    unfold firstHigh
    cases frameBit f 0 <;> rfl
  have hbit (k : Nat) : decide (40 < if frameBit f (k + 1) then 70 else 27) =
      frameBit f (k + 1) := by
    cases frameBit f (k + 1) <;> rfl
  rw [List.range_succ_eq_map, List.map_cons, List.map_map, ← hfirst]
  refine congrArg (decide (40 < firstHigh f - 1) :: ·) ?_
  rw [frameWidths, List.map_map]
  exact List.map_congr_left fun k _ => hbit k

/-- A FRAME is within the default bounds. -/
theorem frame_fits (f : Frame) {a c : Nat} (ha : a ≤ 84) (hc1 : 1 ≤ c) (hc : c ≤ 85) :
    headFits Config.default a c (firstHigh f) ∧ widthsFit Config.default (frameWidths f) := by
  constructor
  · simp only [headFits, firstHigh, Config.default]
    split <;> omega
  · simp only [widthsFit, frameWidths, List.forall_mem_map, Config.default]
    intro k _
    split <;> omega

/-- Settles O49: the script's response is one of R126's form within the default bounds, and its
widths give the frame's bits. -/
theorem scriptedFrameIsReadBack : Obligations.ScriptedFrameIsReadBack := by
  rintro s b0 b1 b2 b3 b4 f a c n x r ws rest hcfg hat ha hc1 hc rfl rfl rfl hfeeds
  set f := frameOfBytes b0 b1 b2 b3 b4
  have hresp : Response.ofItems x [.ack a c, .frame b0 b1 b2 b3 b4] =
      { runs := waveform a c (firstHigh f) (frameWidths f), final := .low } := by
    rw [Response.ofItems_runs x _ _ rfl, Response.ofItems_holds x .low _ _ rfl,
      ← ackRuns_append_frameRuns]
    rfl
  rw [hresp] at hfeeds ⊢
  refine ⟨fun j hj => Response.sample_after _ j hj, ?_⟩
  rw [Response.samples_runs] at hfeeds
  obtain ⟨hhead, hfit⟩ := frame_fits f ha hc1 hc
  rw [← hcfg] at hhead hfit
  obtain ⟨t, ⟨hrun, -⟩, -, ht⟩ := hears_fullWaveform hhead hfit (by simp [frameWidths]) s ws rest
    (inCall_of_atResponse hat) hfeeds
  have hframe : t.frame_q = f := by
    rw [ht.frame_q, ht.shreg, hcfg, waveformBits_frame, ofNat_bitsValue_frameBits]
  exact ⟨t, hrun, ht.st, ht.done_q, hframe, hframe ▸ ht.outcome_q⟩

end Sys2Proof.Machine
end

