-- ==== Sys2Proof/Proofs/Duration.lean ====
section
/-! PROOF. How long a transaction takes (41_frame_decoder.md R128, R129): it is a start sequence and
then at most 82 calls, whatever the line does, each of at least one tick and at most its timeout. -/

namespace Sys2Proof.Machine

/-! ## A transaction from its READ -/

section
variable {s t : State} {r : InputWord} {ws : List InputWord} {rest : List Stimulus}

theorem started_st_ne_idle (k : Nat) : (started s k rest).st ≠ .idle := by
  unfold started startPlace
  split_ifs <;> simp

/-- The start sequence is a run on which the block is busy. -/
theorem busyRun_started (hst : s.st = .idle) (hr : r.rst = false) (hstart : r.start = true)
    (hws : ∀ w ∈ ws, w.rst = false) (hin : s.inputs = scheduled (r :: ws) rest) {k : Nat}
    (hk : k ≤ ws.length) (hend : k ≤ s.cfg.tStartLow + s.cfg.tStartHigh) :
    BusyRun k (started s 0 (scheduled ws rest)) (started s k (scheduled (ws.drop k) rest)) := by
  have after {j : Nat} (hj : j ≤ k) : runSteps j (started s 0 (scheduled ws rest)) =
      .next (started s j (scheduled (ws.drop j) rest)) :=
    (runSteps_succ j (step_read hst hr hstart hin)).symm.trans
      (runSteps_read hst hr hstart hws hin (hj.trans hk) (hj.trans hend))
  exact ⟨after le_rfl, fun j hj => ⟨_, after hj.le, (busy_eq_true_iff _).2 (started_st_ne_idle j)⟩⟩

/-- After the start sequence the call of HS_LOW begins (R125). -/
theorem inCall_started (s : State) (rest : List Stimulus) :
    InCall s .hsLow [] 0 (started s (s.cfg.tStartLow + s.cfg.tStartHigh) rest) :=
  ⟨started_st (startPlace_of_end le_rfl), rfl, ⟨rfl, rfl⟩, rfl, rfl, rfl⟩

/-- What a READ and a busy run after it are in steps from the READ. -/
theorem BusyRun.from_read {n : Nat} (hst : s.st = .idle) (hr : r.rst = false)
    (hstart : r.start = true) (hin : s.inputs = scheduled (r :: ws) rest)
    (h : BusyRun n (started s 0 (scheduled ws rest)) t) :
    runSteps (n + 1) s = .next t ∧
      ∀ j, 1 ≤ j → j ≤ n → ∃ u, runSteps j s = .next u ∧ u.busy = true := by
  have hread : step s = .next (started s 0 (scheduled ws rest)) := step_read hst hr hstart hin
  obtain ⟨hrun, hbusy⟩ := h
  refine ⟨(runSteps_succ n hread).trans hrun, fun j h1 hj => ?_⟩
  obtain ⟨j, rfl⟩ := Nat.exists_eq_add_of_le' h1
  rw [runSteps_succ j hread]
  exact hbusy j hj

end

/-- Settles O51: after the start sequence a high line is the whole timeout of the first call. -/
theorem silentSensorTimesOutAtTheStepOfR128 :
    Obligations.SilentSensorTimesOutAtTheStepOfR128 := by
  intro s r ws rest hst hr hstart hws hhigh hin hlen
  have hdrop : (ws.drop (s.cfg.tStartLow + s.cfg.tStartHigh)).length = s.cfg.toHsLow := by
    rw [List.length_drop]
    omega
  have hlevels : (ws.drop (s.cfg.tStartLow + s.cfg.tStartHigh)).map InputWord.line_in =
      List.replicate s.cfg.toHsLow Level.high :=
    List.eq_replicate_iff.2 ⟨by rw [List.length_map, hdrop], List.forall_mem_map.2 hhigh⟩
  have hbegin := busyRun_started hst hr hstart hws hin (k := s.cfg.tStartLow + s.cfg.tStartHigh)
    (by omega) le_rfl
  obtain ⟨t, hrun, -, ht⟩ := hears_timeout (p := .hsLow) _ _ rest (inCall_started s _)
    ⟨rfl, fun w hw => hws w (List.mem_of_mem_drop hw), hlevels⟩
  have hall := hbegin.trans hrun
  rw [hdrop, ← hlen] at hall
  obtain ⟨hsteps, hbusy⟩ := hall.from_read hst hr hstart hin
  exact ⟨hbusy, t, hsteps, ht.st, ht.done_q, ht.outcome_q, ht.phase_q, ht.bit_cnt, ht.frame_q⟩

/-! ## The calls of a transaction -/

/-- The number of calls before the one of phase `p` after `i` bits (R129). -/
def callsBefore (p : Phase) (i : Nat) : Nat :=
  match p with
  | .hsLow => 0
  | .hsHigh => 1
  | .bitLow => 2 + 2 * i
  | .bitHigh => 3 + 2 * i

/-- The most ticks that the calls from phase `p` after `i` bits on can take (R129). -/
def ticksLeft (cfg : Config) (p : Phase) (i : Nat) : Nat :=
  match p with
  | .hsLow => cfg.toHsLow + cfg.toHsHigh + 40 * (cfg.toBitLow + cfg.toBitHigh)
  | .hsHigh => cfg.toHsHigh + 40 * (cfg.toBitLow + cfg.toBitHigh)
  | .bitLow => (40 - i) * (cfg.toBitLow + cfg.toBitHigh)
  | .bitHigh => cfg.toBitHigh + (39 - i) * (cfg.toBitLow + cfg.toBitHigh)

/-- The 82nd call is the last one. -/
theorem callsBefore_lt {p : Phase} {i : Nat} (hi : i ≤ bitLimit p.state) :
    callsBefore p i < 82 := by
  cases p <;> simp only [bitLimit, Phase.state, callsBefore] at hi ⊢ <;> omega

/-- A call's timeout is within the ticks that are left. -/
theorem timeoutTicks_le_ticksLeft (cfg : Config) {p : Phase} {i : Nat}
    (hi : i ≤ bitLimit p.state) : p.timeoutTicks cfg ≤ ticksLeft cfg p i := by
  cases p with
  | hsLow | hsHigh | bitHigh => simp only [Phase.timeoutTicks, ticksLeft]; omega
  | bitLow =>
    have h39 : i ≤ 39 := hi
    calc cfg.toBitLow ≤ 1 * (cfg.toBitLow + cfg.toBitHigh) := by omega
      _ ≤ (40 - i) * (cfg.toBitLow + cfg.toBitHigh) := Nat.mul_le_mul_right _ (by omega)

/-- The next call is one call later, and takes its ticks from those that are left. -/
theorem callsBefore_nextPhase (cfg : Config) {p : Phase} {bits : List Bool} {e : Nat}
    (hi : bits.length ≤ bitLimit p.state) (hmore : p = .bitHigh → bits.length < 39) :
    (bitsAfter cfg p bits e).length ≤ bitLimit (nextPhase p).state ∧
    callsBefore (nextPhase p) (bitsAfter cfg p bits e).length = callsBefore p bits.length + 1 ∧
    ticksLeft cfg (nextPhase p) (bitsAfter cfg p bits e).length + p.timeoutTicks cfg =
      ticksLeft cfg p bits.length := by
  cases p with
  | hsLow =>
    refine ⟨hi, rfl, ?_⟩
    simp only [ticksLeft, nextPhase, Phase.timeoutTicks]
    omega
  | hsHigh =>
    have h0 : bits.length = 0 := Nat.le_zero.1 hi
    refine ⟨by simp [bitsAfter, h0], by simp [callsBefore, nextPhase, bitsAfter, h0], ?_⟩
    simp only [ticksLeft, nextPhase, bitsAfter, h0, Phase.timeoutTicks]
    omega
  | bitLow =>
    have h39 : bits.length ≤ 39 := hi
    refine ⟨hi, Nat.add_right_comm 2 1 _, ?_⟩
    simp only [ticksLeft, nextPhase, bitsAfter, Phase.timeoutTicks]
    rw [show 40 - bits.length = 39 - bits.length + 1 by omega, Nat.add_one_mul]
    omega
  | bitHigh =>
    have hlt := hmore rfl
    have hlen : (bitsAfter cfg .bitHigh bits e).length = bits.length + 1 := List.length_append
    rw [hlen]
    refine ⟨hlt, ?_, ?_⟩
    · simp only [callsBefore, nextPhase]
      omega
    · simp only [ticksLeft, nextPhase, Phase.timeoutTicks]
      rw [Nat.add_comm, show 40 - (bits.length + 1) = 39 - bits.length by omega]

/-! ## The fewest ticks (R129) -/

/-- A timeout needs the calls before it, and its own timeout. -/
theorem TimedOut.fewestTicks_eq {s0 t : State} {p : Phase} {count : Nat}
    (h : TimedOut s0 p count t) :
    fewestTicks t = callsBefore p count + p.timeoutTicks s0.cfg := by
  rw [fewestTicks, h.outcome_q, h.phase_q, h.cfg, h.bit_cnt]
  cases p <;> simp [callsBefore, Phase.timeoutTicks]

/-- Every other outcome needs 82 calls. -/
theorem fewestTicks_of_ne_timeout {t : State} (h : t.outcome_q ≠ .timeout) :
    fewestTicks t = 82 := by
  cases ho : t.outcome_q with
  | timeout => exact absurd ho h
  | none | ok | checksum => rw [fewestTicks, ho]

theorem Completed.outcome_ne_timeout {s0 t : State} {bits : List Bool} (h : Completed s0 bits t) :
    t.outcome_q ≠ .timeout := by
  rcases outcome_of_frame h.outcome_q with ⟨ho, -⟩ | ⟨ho, -⟩ <;> simp [ho]

/-! ## Whatever the line does -/

/-- `T` levels are all at `l`, or there is a first one away from it. -/
theorem levels_cases (l : Level) (T : Nat) {levels : List Level} (h : T ≤ levels.length) :
    (∃ more, levels = List.replicate T l ++ more) ∨
      ∃ n < T, ∃ more, levels = (List.replicate n l ++ [l.flip]) ++ more := by
  induction T generalizing levels with
  | zero => exact .inl ⟨levels, rfl⟩
  | succ T ih =>
    cases levels with
    | nil => simp at h
    | cons x levels =>
      by_cases hx : x = l
      · subst hx
        rcases ih (Nat.le_of_succ_le_succ h) with ⟨more, rfl⟩ | ⟨n, hn, more, rfl⟩
        · exact .inl ⟨more, rfl⟩
        · exact .inr ⟨n + 1, Nat.succ_lt_succ hn, more, rfl⟩
      · obtain rfl := (level_ne_iff x l).1 hx
        exact .inr ⟨0, Nat.succ_pos T, levels, rfl⟩

/-- The transaction has ended, with `n` ticks taken since its first `calls` calls, and these are no
fewer than its outcome needs. -/
structure EndedAfter (calls n : Nat) (t : State) : Prop where
  st : t.st = .idle
  done_q : t.done_q = true
  fewest : fewestTicks t ≤ calls + n

section
variable {s0 s : State} {p : Phase} {bits : List Bool} {ws : List InputWord} {rest : List Stimulus}

/-- Whatever the line does, within its timeout a call ends the transaction or begins the next
call. -/
theorem InCall.ends_or_next (h : InCall s0 p bits 0 s) (hi : bits.length ≤ bitLimit p.state)
    (hin : s.inputs = scheduled ws rest) (hr : ∀ w ∈ ws, w.rst = false)
    (hlen : p.timeoutTicks s0.cfg ≤ ws.length) :
    ∃ n t, n ≤ p.timeoutTicks s0.cfg ∧ BusyRun n s t ∧
      (EndedAfter (callsBefore p bits.length) n t ∨
        1 ≤ n ∧ (p = .bitHigh → bits.length < 39) ∧
          ∃ e vs, InCall s0 (nextPhase p) (bitsAfter s0.cfg p bits e) 0 t ∧
            t.inputs = scheduled vs rest ∧ (∀ w ∈ vs, w.rst = false) ∧
            ws.length = n + vs.length) := by
  rw [← List.length_map (as := ws) InputWord.line_in] at hlen
  rcases levels_cases p.target _ hlen with ⟨more, hmore⟩ | ⟨n, hn, more, hmore⟩
  · obtain ⟨us, vs, rfl, hf, -⟩ := feeds_append ⟨hin, hr, hmore⟩
    obtain ⟨t, hrun, -, ht⟩ := hears_timeout s us _ h hf
    have hcount : us.length = p.timeoutTicks s0.cfg := by simpa using feeds_length hf
    rw [hcount] at hrun
    exact ⟨_, t, le_rfl, hrun, .inl ⟨ht.st, ht.done_q, ht.fewestTicks_eq.le⟩⟩
  · obtain ⟨us, vs, rfl, hf, hf'⟩ := feeds_append ⟨hin, hr, hmore⟩
    have hcount : us.length = n + 1 := by simpa using feeds_length hf
    by_cases hlast : p = .bitHigh ∧ bits.length = 39
    · obtain ⟨rfl, h39⟩ := hlast
      obtain ⟨t, hrun, -, ht⟩ := (hears_waits hn).append (hears_lastBit h39) s us _ h hf
      have hfewest : fewestTicks t ≤ callsBefore .bitHigh bits.length + us.length := by
        rw [fewestTicks_of_ne_timeout ht.outcome_ne_timeout, h39, hcount]
        simp only [callsBefore]
        omega
      exact ⟨_, t, hcount.trans_le hn, hrun, .inl ⟨ht.st, ht.done_q, hfewest⟩⟩
    · have hbits : p = .bitHigh → bits.length < 39 := by
        rintro rfl
        exact lt_of_le_of_ne hi fun h39 => hlast ⟨rfl, h39⟩
      obtain ⟨t, hrun, htin, ht⟩ := hears_call hn hbits s us _ h hf
      obtain ⟨-, hr', -⟩ := hf' t htin
      exact ⟨_, t, hcount.trans_le hn, hrun, .inr ⟨hcount ▸ Nat.le_add_left 1 n, hbits, n + 1, vs,
        ht, htin, hr', List.length_append⟩⟩

/-- From the beginning of a call, with ticks enough to come, the transaction ends within the ticks
that are left: there are at most `m` more calls. -/
theorem InCall.ends (m : Nat) (h : InCall s0 p bits 0 s) (hi : bits.length ≤ bitLimit p.state)
    (hm : callsBefore p bits.length + m = 82) (hin : s.inputs = scheduled ws rest)
    (hr : ∀ w ∈ ws, w.rst = false) (hlen : ticksLeft s0.cfg p bits.length ≤ ws.length) :
    ∃ n t, n ≤ ticksLeft s0.cfg p bits.length ∧ BusyRun n s t ∧
      EndedAfter (callsBefore p bits.length) n t := by
  induction m generalizing p bits s ws with
  | zero => exact absurd hm (callsBefore_lt hi).ne
  | succ m ih =>
    have htimeout := timeoutTicks_le_ticksLeft s0.cfg hi
    obtain ⟨n, u, hn, hrun, hend | ⟨h1, hbits, e, vs, hu, huin, hur, hcount⟩⟩ :=
      h.ends_or_next hi hin hr (htimeout.trans hlen)
    · exact ⟨n, u, hn.trans htimeout, hrun, hend⟩
    · obtain ⟨hi', hcalls, hticks⟩ := callsBefore_nextPhase s0.cfg (e := e) hi hbits
      obtain ⟨k, t, hk, hrun', hst, hdone, hfewest⟩ :=
        ih hu hi' (by omega) huin hur (by omega)
      exact ⟨n + k, t, by omega, hrun.trans hrun', hst, hdone, by omega⟩

end

/-! ## `done` during a transaction (R29) -/

/-- `done` only in IDLE (R40 item 6) passes through every step, whatever is presented. -/
theorem step_keeps_doneIdle {s t : State} (h : s.done_q = true → s.st = .idle)
    (hs : step s = .next t) (hd : t.done_q = true) : t.st = .idle := by
  cases hp : s.present with
  | tick w => exact (completionPublishesInOneStep s t w hp hs hd).1
  | ptWord w | ckWord w =>
    obtain ⟨u, hu, rfl⟩ := exists_exec_of_step hs
    rw [State.fetchWord, hp] at hu
    cases hu
    rw [advance_st]
    rw [advance_done_q] at hd
    exact h hd

theorem runSteps_keeps_doneIdle {n : Nat} {s t : State} (h : s.done_q = true → s.st = .idle)
    (hrun : runSteps n s = .next t) : t.done_q = true → t.st = .idle := by
  induction n generalizing s with
  | zero =>
    cases hrun
    exact h
  | succ n ih =>
    obtain ⟨u, hu⟩ := stepIsTotal s
    rw [runSteps_succ n hu] at hrun
    exact ih (step_keeps_doneIdle h hu) hrun

/-- Settles O50: the start sequence, then at most 82 calls. -/
theorem transactionEndsWithinTheBound : Obligations.TransactionEndsWithinTheBound := by
  intro s r ws rest hst hr hstart hws hin hlen
  have hbegin := busyRun_started hst hr hstart hws hin (k := s.cfg.tStartLow + s.cfg.tStartHigh)
    (by omega) le_rfl
  have hleft : ticksLeft s.cfg .hsLow 0 ≤
      (ws.drop (s.cfg.tStartLow + s.cfg.tStartHigh)).length := by
    simp only [ticksLeft, List.length_drop]
    omega
  obtain ⟨n, t, hn, hrun, hti, hdone, hfewest⟩ := (inCall_started s _).ends 82
    (Nat.zero_le _) rfl rfl (fun w hw => hws w (List.mem_of_mem_drop hw)) hleft
  have hpos := hrun.pos (started_st_ne_idle _) hti
  simp only [ticksLeft, callsBefore, Nat.zero_add] at hn hfewest
  obtain ⟨hsteps, hbusy⟩ := (hbegin.trans hrun).from_read hst hr hstart hin
  refine ⟨_, t, by omega, by omega, hsteps, hti, hdone, fun ho => ?_, by omega, fun j h1 hj => ?_⟩
  · rw [fewestTicks_of_ne_timeout ho] at hfewest
    omega
  · obtain ⟨u, hu, hub⟩ := hbusy j h1 hj
    exact ⟨u, hu, hub, Bool.eq_false_iff.2 fun hd => (busy_eq_true_iff u).1 hub
      (runSteps_keeps_doneIdle (fun _ => hst) hu hd)⟩

end Sys2Proof.Machine
end
